-- ==== Sys2Proof/Word.lean ====
section
/-! DEFINITION. The value types of 00_scope.md R10: every value is unsigned, `u1`, `u8`, `u9`, `u16`, `u32`
are bit vectors of that width, and `Bytes` is a finite sequence of bytes with index 0 first (R11). -/

namespace Sys2Proof

/-- `u1` (R10): a flag, a level, a bit value. -/
abbrev U1 := BitVec 1

/-- `u8` (R10): a byte, an element of a frame. -/
abbrev Byte := BitVec 8

/-- `u9` (R10): the width of the assembler's fill length. -/
abbrev U9 := BitVec 9

/-- `u16` (R10): a checksum, a register value, a bit index. -/
abbrev U16 := BitVec 16

/-- `u32` (R10): a command word, a timestamp, a bit count. -/
abbrev U32 := BitVec 32

/-- `Bytes` (R10): a finite byte sequence. -/
abbrev Bytes := List Byte

end Sys2Proof
end

