-- ==== Sys2Proof/Syntax.lean ====
section
/-! DEFINITION. The 15 operations of 30_encoding.md R96, one constructor for each row of the opcode table, with
the operands R95 assembles, and the fault codes of 60_exceptions.md R260. -/

namespace Sys2Proof

/-- One operation (R96). An F2 operation carries its byte sequence as it comes from DIN (R93). -/
inductive Instr where
  /-- CRC.INIT (R133). -/
  | crcInit
  /-- CRC.UPDATE b (R134). -/
  | crcUpdate (b : Byte)
  /-- CRC.READ (R135). -/
  | crcRead
  /-- CRC.COMPUTE bytes (R136). -/
  | crcCompute (bytes : Bytes)
  /-- CRC.VERIFY frame (R137). -/
  | crcVerify (frame : Bytes)
  /-- CRC.APPEND bytes (R138). -/
  | crcAppend (bytes : Bytes)
  /-- BIT.PACK idx, v, nbits (R171). -/
  | bitPack (idx : U16) (v : U1) (nbits : U32)
  /-- BIT.READ idx, nbits (R172). -/
  | bitRead (idx : U16) (nbits : U32)
  /-- W16.TO value (R173). -/
  | w16To (value : U16)
  /-- W16.FROM hi, lo (R174). -/
  | w16From (hi lo : Byte)
  /-- RX.BYTE b, ts (R202). -/
  | rxByte (b : Byte) (ts : U32)
  /-- RX.POLL now (R203). -/
  | rxPoll (now : U32)
  /-- RX.STATUS (R204). -/
  | rxStatus
  /-- DIR.TX (R240). -/
  | dirTx
  /-- DIR.RX (R241). -/
  | dirRx
deriving DecidableEq, Repr

/-- The three fault codes the block raises (R260). -/
inductive FaultCode where
  /-- The operation code is not assigned (R97). -/
  | illegalCommand
  /-- A field marked reserved in R96 is non-zero (R97). -/
  | reservedField
  /-- `idx >= nbits`, or the byte lies outside the caller buffer (R170). -/
  | bitIndexRange
deriving DecidableEq, Repr

end Sys2Proof
end

