-- ==== Sys2Proof/WellFormed.lean ====
section
/-! DEFINITION. Which terms of `Instr` an encoding exists for. Every operand but the byte sequences has its field's
width by type; a byte sequence has at most 65535 bytes, since its count travels in the 16-bit field B16
(30_encoding.md R93, R100). -/

namespace Sys2Proof

/-- The longest byte sequence an F2 operation can carry (R93). -/
abbrev maxData : Nat := 65535

/-- The operand checks of R100 that the types do not already make. -/
def Instr.wellFormed : Instr → Bool
  | .crcInit => true
  | .crcUpdate _ => true
  | .crcRead => true
  | .crcCompute bytes => decide (bytes.length ≤ maxData)
  | .crcVerify frame => decide (frame.length ≤ maxData)
  | .crcAppend bytes => decide (bytes.length ≤ maxData)
  | .bitPack _ _ _ => true
  | .bitRead _ _ => true
  | .w16To _ => true
  | .w16From _ _ => true
  | .rxByte _ _ => true
  | .rxPoll _ => true
  | .rxStatus => true
  | .dirTx => true
  | .dirRx => true

end Sys2Proof
end

