-- ==== Sys2Proof/Decode.lean ====
section
/-! DEFINITION. The command words of 30_encoding.md: the decoder from the two input streams (R90 to R99), total on
any streams and rejecting by fault code, and after it the encoder from the same table. -/

namespace Sys2Proof

/-! ### Fields of word 0 (R90) -/

/-- OPC, bits 31:24 of word 0. -/
def opcField (w : U32) : Byte := w.extractLsb' 24 8

/-- A8, bits 23:16 of word 0. -/
def a8Field (w : U32) : Byte := w.extractLsb' 16 8

/-- B16, bits 15:0 of word 0. -/
def b16Field (w : U32) : U16 := w.extractLsb' 0 16

/-- Word 0 from its three fields. -/
def mkWord0 (opc a8 : Byte) (b16 : U16) : U32 := opc ++ a8 ++ b16

/-! ### The opcode map (R96) -/

/-- The three operation formats (R91 to R93). -/
inductive Format where
  /-- Word 0 alone (R91). -/
  | f0
  /-- Word 0 and the operand word X32 (R92). -/
  | f1
  /-- Word 0 and B16 bytes on DIN (R93). -/
  | f2
deriving DecidableEq, Repr

/-- The assigned operation codes, in the order of R96. -/
inductive Opcode where
  | crcInit | crcUpdate | crcRead | crcCompute | crcVerify | crcAppend
  | bitPack | bitRead | w16To | w16From
  | rxByte | rxPoll | rxStatus
  | dirTx | dirRx
deriving DecidableEq, Repr

/-- One row of R96: the code, the format and the bits of A8 and of B16 that are reserved. -/
structure Row where
  code : Byte
  format : Format
  reservedA8 : Byte
  reservedB16 : U16
deriving DecidableEq, Repr

/-- The table of R96: a field marked 0 there is reserved whole, `[7:1]=0` and `[15:8]=0` reserve those bits. -/
def Opcode.row : Opcode → Row
  | .crcInit    => ⟨0x10, .f0, 0xFF, 0xFFFF⟩
  | .crcUpdate  => ⟨0x11, .f0, 0x00, 0xFFFF⟩
  | .crcRead    => ⟨0x12, .f0, 0xFF, 0xFFFF⟩
  | .crcCompute => ⟨0x13, .f2, 0xFF, 0x0000⟩
  | .crcVerify  => ⟨0x14, .f2, 0xFF, 0x0000⟩
  | .crcAppend  => ⟨0x15, .f2, 0xFF, 0x0000⟩
  | .bitPack    => ⟨0x20, .f1, 0xFE, 0x0000⟩
  | .bitRead    => ⟨0x21, .f1, 0xFF, 0x0000⟩
  | .w16To      => ⟨0x22, .f0, 0xFF, 0x0000⟩
  | .w16From    => ⟨0x23, .f0, 0x00, 0xFF00⟩
  | .rxByte     => ⟨0x30, .f1, 0x00, 0xFFFF⟩
  | .rxPoll     => ⟨0x31, .f1, 0xFF, 0xFFFF⟩
  | .rxStatus   => ⟨0x32, .f0, 0xFF, 0xFFFF⟩
  | .dirTx      => ⟨0x40, .f0, 0xFF, 0xFFFF⟩
  | .dirRx      => ⟨0x41, .f0, 0xFF, 0xFFFF⟩

/-- The rows of R96 in their order. -/
def Opcode.all : List Opcode :=
  [.crcInit, .crcUpdate, .crcRead, .crcCompute, .crcVerify, .crcAppend, .bitPack, .bitRead, .w16To, .w16From,
   .rxByte, .rxPoll, .rxStatus, .dirTx, .dirRx]

/-- The operation an OPC value names; none when it is unassigned (R97). -/
def Opcode.ofCode (c : Byte) : Option Opcode :=
  Opcode.all.find? fun o => o.row.code == c

/-- The reserved-field check of R97: every reserved bit of word 0 is zero. -/
def Opcode.reservedClear (o : Opcode) (w0 : U32) : Bool :=
  (a8Field w0 &&& o.row.reservedA8) == 0 && (b16Field w0 &&& o.row.reservedB16) == 0

/-- Operand assembly (R95): no operand is sign-extended, scaled or shifted. -/
def Opcode.assemble (o : Opcode) (w0 x32 : U32) (data : Bytes) : Instr :=
  match o with
  | .crcInit => .crcInit
  | .crcUpdate => .crcUpdate (a8Field w0)
  | .crcRead => .crcRead
  | .crcCompute => .crcCompute data
  | .crcVerify => .crcVerify data
  | .crcAppend => .crcAppend data
  | .bitPack => .bitPack (b16Field w0) ((a8Field w0).extractLsb' 0 1) x32
  | .bitRead => .bitRead (b16Field w0) x32
  | .w16To => .w16To (b16Field w0)
  | .w16From => .w16From (a8Field w0) ((b16Field w0).extractLsb' 0 8)
  | .rxByte => .rxByte (a8Field w0) x32
  | .rxPoll => .rxPoll x32
  | .rxStatus => .rxStatus
  | .dirTx => .dirTx
  | .dirRx => .dirRx

/-! ### Decoding (R94, R98) -/

/-- What the decoder finds at the head of the two input streams; `cmd` and `din` are what is left of them. -/
inductive Decoded where
  /-- The operation is not all there yet: the block waits (R42, R73; log 5). -/
  | waiting
  /-- The operation is rejected with a fault code; `word0` is its word 0 (R97, R261). -/
  | rejected (code : FaultCode) (word0 : U32) (cmd : List U32) (din : Bytes)
  /-- A whole operation with its operands. -/
  | op (i : Instr) (cmd : List U32) (din : Bytes)
deriving DecidableEq, Repr

/-- What follows word 0: the operand word, the data bytes, and what is left of the two streams. -/
structure Operands where
  x32 : U32
  data : Bytes
  cmd : List U32
  din : Bytes
deriving DecidableEq, Repr

/-- Consume an operation's operands by its format (R94): word 1 for F1, `n` data bytes for F2. None when they have
not all arrived. -/
def takeOperands (f : Format) (n : Nat) (cmd : List U32) (din : Bytes) : Option Operands :=
  match f with
  | .f0 => some ⟨0, [], cmd, din⟩
  | .f1 =>
    match cmd with
    | [] => none
    | x :: rest => some ⟨x, [], rest, din⟩
  | .f2 => if n ≤ din.length then some ⟨0, din.take n, cmd, din.drop n⟩ else none

/-- The decoder: the OPC check, then the length rule of R94, then the reserved-field check (R98). An unassigned OPC
consumes word 0 only; a non-zero reserved field consumes the operation's whole length. -/
def decode (cmd : List U32) (din : Bytes) : Decoded :=
  match cmd with
  | [] => .waiting
  | w0 :: rest =>
    match Opcode.ofCode (opcField w0) with
    | none => .rejected .illegalCommand w0 rest din
    | some o =>
      match takeOperands o.row.format (b16Field w0).toNat rest din with
      | none => .waiting
      | some r =>
        if o.reservedClear w0 then .op (o.assemble w0 r.x32 r.data) r.cmd r.din
        else .rejected .reservedField w0 r.cmd r.din

/-! ### Encoding (R96, R100) -/

/-- The row of R96 an operation belongs to. -/
def Instr.opcode : Instr → Opcode
  | .crcInit => .crcInit
  | .crcUpdate _ => .crcUpdate
  | .crcRead => .crcRead
  | .crcCompute _ => .crcCompute
  | .crcVerify _ => .crcVerify
  | .crcAppend _ => .crcAppend
  | .bitPack _ _ _ => .bitPack
  | .bitRead _ _ => .bitRead
  | .w16To _ => .w16To
  | .w16From _ _ => .w16From
  | .rxByte _ _ => .rxByte
  | .rxPoll _ => .rxPoll
  | .rxStatus => .rxStatus
  | .dirTx => .dirTx
  | .dirRx => .dirRx

/-- The field A8 of an operation's word 0 (R95, R96). -/
def Instr.a8 : Instr → Byte
  | .crcUpdate b => b
  | .bitPack _ v _ => v.setWidth 8
  | .w16From hi _ => hi
  | .rxByte b _ => b
  | .crcInit | .crcRead | .crcCompute _ | .crcVerify _ | .crcAppend _ | .bitRead _ _ | .w16To _ | .rxPoll _
  | .rxStatus | .dirTx | .dirRx => 0

/-- The field B16 of an operation's word 0 (R95, R96). -/
def Instr.b16 : Instr → U16
  | .crcCompute bytes => BitVec.ofNat 16 bytes.length
  | .crcVerify frame => BitVec.ofNat 16 frame.length
  | .crcAppend bytes => BitVec.ofNat 16 bytes.length
  | .bitPack idx _ _ => idx
  | .bitRead idx _ => idx
  | .w16To value => value
  | .w16From _ lo => lo.setWidth 16
  | .crcInit | .crcUpdate _ | .crcRead | .rxByte _ _ | .rxPoll _ | .rxStatus | .dirTx | .dirRx => 0

/-- Word 0 of an operation, which a fault response carries (R261). -/
def Instr.word0 (i : Instr) : U32 := mkWord0 i.opcode.row.code i.a8 i.b16

/-- The words after word 0: X32 for format F1 (R92). -/
def Instr.operandWords : Instr → List U32
  | .bitPack _ _ nbits => [nbits]
  | .bitRead _ nbits => [nbits]
  | .rxByte _ ts => [ts]
  | .rxPoll now => [now]
  | .crcInit | .crcUpdate _ | .crcRead | .crcCompute _ | .crcVerify _ | .crcAppend _ | .w16To _ | .w16From _ _
  | .rxStatus | .dirTx | .dirRx => []

/-- An operation's words on CMD. -/
def Instr.words (i : Instr) : List U32 := i.word0 :: i.operandWords

/-- An operation's bytes on DIN (R93). -/
def Instr.data : Instr → Bytes
  | .crcCompute bytes => bytes
  | .crcVerify frame => frame
  | .crcAppend bytes => bytes
  | .crcInit | .crcUpdate _ | .crcRead | .bitPack _ _ _ | .bitRead _ _ | .w16To _ | .w16From _ _ | .rxByte _ _
  | .rxPoll _ | .rxStatus | .dirTx | .dirRx => []

/-- The encoder: an operation's words on CMD and its bytes on DIN. -/
def encode (i : Instr) : List U32 × Bytes := (i.words, i.data)

/-! ### An instruction given as one number (log 12) -/

/-- `n` bytes of a number, least significant first. -/
def bytesOfNat : Nat → Nat → Bytes
  | 0, _ => []
  | n + 1, w => BitVec.ofNat 8 w :: bytesOfNat n (w >>> 8)

/-- The two streams that hold the instruction whose bits are `w`, every bit from `nbits` up being 0: word 0 is bits
31..0; for F1 word 1 is bits 63..32; for F2 the data bytes lie from bit 32 up, byte 0 lowest (log 12). -/
def streamsOfNumber (nbits w : Nat) : List U32 × Bytes :=
  let bits := w % 2 ^ nbits
  let w0 := BitVec.ofNat 32 bits
  match Opcode.ofCode (opcField w0) with
  | none => ([w0], [])
  | some o =>
    match o.row.format with
    | .f0 => ([w0], [])
    | .f1 => ([w0, BitVec.ofNat 32 (bits >>> 32)], [])
    | .f2 => ([w0], bytesOfNat (b16Field w0).toNat (bits >>> 32))

/-- The instruction the decoder reads from an instruction given as one number. -/
def decodeTableWord (nbits w : Nat) : Option Instr :=
  match decode (streamsOfNumber nbits w).1 (streamsOfNumber nbits w).2 with
  | .op i _ _ => some i
  | .waiting => none
  | .rejected _ _ _ _ => none

end Sys2Proof
end

