-- ==== Sys2Proof/Config.lean ====
section
/-! DEFINITION. The implementation parameters of 00_scope.md R7. The fixed ones are plain constants; the three
OPEN ones are the fields of `Config`, which the step relation takes as an argument (R7, R39). -/

namespace Sys2Proof

/-- The OPEN parameters of R7, fixed for the life of a run (R8, R39). A state carries them in its field `cfg`
(DESIGN CHOICE of form, log 1, safe: every statement ranges over every value of them). -/
structure Config where
  /-- T_IFD_MS: the inter-frame delay in milliseconds, any value 0..2^32-1 (R7). -/
  tIfdMs : U32
  /-- CBUF_BYTES: the size of the caller buffer in bytes, 0..8192 (R7). -/
  cbufBytes : Fin 8193
  /-- HAS_DIR: whether the direction-control line exists (R7). -/
  hasDir : Bool
deriving DecidableEq, Repr

/-- T_IFD_MS of the chip at hand: OPEN (R7), so a constant without a value (log 1). -/
opaque Config.T_IFD_MS : U32

/-- CBUF_BYTES of the chip at hand: OPEN (R7), so a constant without a value (log 1). -/
opaque Config.CBUF_BYTES : Fin 8193

/-- HAS_DIR of the chip at hand: OPEN (R7), so a constant without a value (log 1). -/
opaque Config.HAS_DIR : Bool

/-- The parameters of the chip at hand, those of `State.reset`. -/
def Config.chip : Config :=
  { tIfdMs := Config.T_IFD_MS, cbufBytes := Config.CBUF_BYTES, hasDir := Config.HAS_DIR }

/-- RX_CAP: the capacity of the assembler buffer in bytes (R7). -/
abbrev rxCap : Nat := 256

/-- CRC_INIT: the initial checksum value (R7). -/
def crcInitValue : U16 := 0xFFFF#16

/-- CRC_POLY_REV: the reversed polynomial (R7). -/
def crcPolyRev : U16 := 0xA001#16

end Sys2Proof
end

