-- ==== Sys2Proof/Machine/State.lean ====
section
/-! DEFINITION. What the machine holds (10_state.md R49), its ports (R42 to R45), and its state after reset (R50,
70_reset_and_hazards.md R290). Plain data throughout. -/

namespace Sys2Proof.Machine

/-- The POLL record of R45. -/
structure PollRecord where
  ready : U1
  ovf : U1
  frame : Bytes
deriving DecidableEq, Repr

/-- The STATUS record of R45. -/
structure StatusRecord where
  fill : U9
  ovf : U1
  last_ts : U32
deriving DecidableEq, Repr

/-- The value part of an Ok response, one form for each result type of R45. -/
inductive Value where
  | unit
  | bit (v : U1)
  | word (v : U16)
  | bytes (v : Bytes)
  | poll (v : PollRecord)
  | status (v : StatusRecord)
deriving DecidableEq, Repr

/-- One response on RES (R45). A fault response carries its code and word 0 of the faulting operation (R261). -/
inductive Response where
  | ok (value : Value)
  | fault (code : FaultCode) (word0 : U32)
deriving DecidableEq, Repr

/-- The machine. The first six fields after `cfg` and `cbuf` are the record of R49; `cmd`, `din` and `res` are the
ports CMD, DIN and RES (R42, R43, R45). -/
structure State where
  /-- The OPEN parameters, which no operation writes (R39; log 1). -/
  cfg : Config
  /-- The streaming checksum accumulator (R33). -/
  crc : U16
  /-- The number of bytes in the assembler buffer, 0..256 (R34). -/
  fill : U9
  /-- The timestamp of the last byte arrival, in ms (R35). -/
  last_ts : U32
  /-- The sticky overflow flag (R36). -/
  ovf : U1
  /-- The direction: 1 transmit, 0 receive (R37). -/
  dir : U1
  /-- The assembler buffer (R38). -/
  rxbuf : Vector Byte 256
  /-- The caller buffer (20_memory.md R61): (address, byte) pairs in the canonical form `Memory.wf` of Ops. -/
  cbuf : List Host.Cell
  /-- Command words on CMD not consumed yet, oldest first (R42; log 4). -/
  cmd : List U32
  /-- Bytes on DIN not consumed yet, first byte first (R43; log 4). -/
  din : Bytes
  /-- Every response given, oldest first, never cleared (R45, 60_exceptions.md R262; log 3). -/
  res : List Response
deriving DecidableEq, Repr

/-- The reasons a MACHINE stops. The block's own three fault codes are not among them: a fault of the block is a
response, and the command stream goes on (60_exceptions.md R261; log 2). -/
inductive Fault where
  /-- Raised by the environment's `Event.writeCbuf` (Machine/Environment.lean) for an address at or above CBUF_BYTES,
  which does not exist (20_memory.md R61; log 11). No operation of the block raises it. Safe. -/
  | hostCbufAddress (address : Nat)
deriving DecidableEq, Repr

/-- The reasons the model gives no meaning. -/
inductive Refusal where
  /-- Raised by an arm of `exec` that has no meaning yet; no arm is left so. Safe. -/
  | notModelled (mnemonic : String)
deriving DecidableEq, Repr

/-- The machine right after the power-on reset (R50, R290). The spec gives `dir`, `fill`, `ovf`, `last_ts` and `crc`.
`rxbuf` is unspecified there and named 0x00 here (DESIGN CHOICE, log 7); `cbuf` is the host's and lists nothing
(DESIGN CHOICE, log 8); the ports are empty and the block waits (log 10); the parameters are the chip's (log 1). -/
def State.reset : State where
  cfg := Config.chip
  crc := 0xFFFF
  fill := 0
  last_ts := 0
  ovf := 0
  dir := 0
  rxbuf := Vector.replicate 256 0x00
  cbuf := []
  cmd := []
  din := []
  res := []

end Sys2Proof.Machine
end

