-- ==== Sys2Proof/Machine/Operands.lean ====
section
/-! DEFINITION. Operand forms: the bit address of 41_codec.md R170 and the two 16-bit byte orders of 20_memory.md
R64 and R65. -/

namespace Sys2Proof.Machine

/-- `bit_addr` of R170: the CBUF byte `idx div 8` and the bit position `idx mod 8`, or none (the BitIndexRange fault)
when `idx >= nbits` or the byte lies outside the caller buffer. -/
def bitAddr (cfg : Config) (idx : U16) (nbits : U32) : Option (Nat × Nat) :=
  if nbits ≤ idx.setWidth 32 then none
  else if cfg.cbufBytes.val ≤ idx.toNat / 8 then none
  else some (idx.toNat / 8, idx.toNat % 8)

/-- The byte BIT.PACK writes (R171): bit `p` of `old` replaced by `v`. -/
def packBit (old : Byte) (p : Nat) (v : U1) : Byte :=
  (old &&& ~~~(0x01#8 <<< p)) ||| (v.setWidth 8 <<< p)

/-- The bit BIT.READ answers (R172): bit `p` of the byte. -/
def readBit (byte : Byte) (p : Nat) : U1 :=
  ((byte >>> p) &&& 0x01#8).setWidth 1

/-- `le16` of 40_crc.md R132: the trailer bytes, low byte first (R64). -/
def le16 (c : U16) : Bytes := [c.extractLsb' 0 8, c.extractLsb' 8 8]

/-- A trailer's bytes read as a little-endian value (R132, R64). -/
def fromLe16 (lo hi : Byte) : U16 := (hi.setWidth 16 <<< 8) ||| lo.setWidth 16

/-- `to_wire16` of R173: the high byte first (R65). -/
def toWire16 (value : U16) : Bytes := [value.extractLsb' 8 8, value.extractLsb' 0 8]

/-- `from_wire16` of R174. -/
def fromWire16 (hi lo : Byte) : U16 := (hi.setWidth 16 <<< 8) ||| lo.setWidth 16

end Sys2Proof.Machine
end

