-- ==== Sys2Proof/Machine/Flags.lean ====
section
/-! DEFINITION. The one status flag `ovf` (10_state.md R36, R40), the silence comparison of 42_assembler.md R200 and
the assembler's states, which are predicates (00_scope.md R15). -/

namespace Sys2Proof.Machine

/-- `elapsed` of R200: subtraction modulo 2^32. -/
def elapsed (now ts : U32) : U32 := now - ts

/-- `complete` of R200: a byte is held and the silence has reached T_IFD_MS, an unsigned comparison. -/
def State.complete (s : State) (now : U32) : Bool :=
  decide (0 < s.fill) && decide (s.cfg.tIfdMs ≤ elapsed now s.last_ts)

/-- There is room for a byte (R202). -/
def State.hasRoom (s : State) : Bool := decide (s.fill.toNat < rxCap)

/-- `ovf` after RX.BYTE (R202, R36): set when the byte is dropped, otherwise as before. -/
def State.ovfAfterByte (s : State) : U1 := if s.hasRoom then s.ovf else 1

/-- `ovf` after RX.POLL (R203, R36): cleared when a frame is delivered, otherwise as before. -/
def State.ovfAfterPoll (s : State) (now : U32) : U1 := if s.complete now then 0 else s.ovf

/-- The states of R15 as an observer with the time `now` sees them. -/
inductive AssemblerState where
  | idle
  | receiving
  | frameComplete
deriving DecidableEq, Repr

/-- R15: Idle when nothing is held, FrameComplete when `complete` holds, Receiving otherwise. -/
def State.assemblerState (s : State) (now : U32) : AssemblerState :=
  if s.fill = 0 then .idle else if s.complete now then .frameComplete else .receiving

end Sys2Proof.Machine
end

