-- ==== Sys2Proof/Machine/Ops.lean ====
section
/-! DEFINITION. The named operations over the caller buffer, the registers and the ports that the meanings share. -/

namespace Sys2Proof.Machine

/-! ### The caller buffer (20_memory.md R61, R62) -/

/-- A byte store as (address, byte) pairs. -/
abbrev Memory := List Host.Cell

/-- What an unlisted address reads as (DESIGN CHOICE, log 8, unsafe: the spec says the host put something there). -/
def Memory.unlisted : Byte := 0x00

/-- The byte at an address. -/
def Memory.read : Memory → Nat → Byte
  | [], _ => Memory.unlisted
  | (b, v) :: rest, a => if b = a then v else Memory.read rest a

/-- Replace the byte at an address, keeping the canonical form: writing what an unlisted address reads as removes the
entry. -/
def Memory.write : Memory → Nat → Byte → Memory
  | [], a, v => if v = Memory.unlisted then [] else [(a, v)]
  | (b, w) :: rest, a, v =>
    if a < b then (if v = Memory.unlisted then (b, w) :: rest else (a, v) :: (b, w) :: rest)
    else if a = b then (if v = Memory.unlisted then rest else (a, v) :: rest)
    else (b, w) :: Memory.write rest a v

/-- The canonical form: addresses strictly rising, and no entry equal to what an unlisted address reads as. -/
def Memory.wf : Memory → Bool
  | [] => true
  | (b, v) :: rest => (v != Memory.unlisted) && rest.all (fun c => decide (b < c.1)) && Memory.wf rest

/-- `MemRead(CBUF, a, 1)` (R62): no side effect (R72). -/
def State.memRead (s : State) (a : Nat) : Byte := Memory.read s.cbuf a

/-- `MemWrite(CBUF, a, 1, v)` (R62). -/
def State.memWrite (s : State) (a : Nat) (v : Byte) : State := { s with cbuf := Memory.write s.cbuf a v }

/-! ### Registers (10_state.md R33 to R38) -/

/-- Write the checksum accumulator (R33). -/
def State.setCrc (s : State) (c : U16) : State := { s with crc := c }

/-- Store a byte at `rxbuf[fill]` and count it; without room nothing is stored (R202, R38). -/
def State.storeByte (s : State) (b : Byte) : State :=
  if s.hasRoom then { s with rxbuf := s.rxbuf.setIfInBounds s.fill.toNat b, fill := s.fill + 1 } else s

/-- Write the overflow flag (R36). -/
def State.setOvf (s : State) (v : U1) : State := { s with ovf := v }

/-- Write the last-arrival timestamp (R35). -/
def State.setLastTs (s : State) (ts : U32) : State := { s with last_ts := ts }

/-- Empty the assembler (R203). -/
def State.clearFill (s : State) : State := { s with fill := 0 }

/-- Write the direction. Without the direction line `dir` stays as it is (R37, 43_direction.md R240, R244). -/
def State.assertTransmit (s : State) : State := if s.cfg.hasDir then { s with dir := 1 } else s

/-- Write the direction to receive (43_direction.md R241). -/
def State.assertReceive (s : State) : State := { s with dir := 0 }

/-- The bytes held by the assembler, `rxbuf[0..fill)` (R203). -/
def State.frame (s : State) : Bytes := s.rxbuf.toList.take s.fill.toNat

/-! ### Ports (10_state.md R42 to R46) -/

/-- Give a response on RES (R45). -/
def State.respond (s : State) (r : Response) : State := { s with res := s.res ++ [r] }

/-- Give an Ok response (R45). -/
def State.ok (s : State) (v : Value) : State := s.respond (.ok v)

/-- TAKE A FAULT, the one shared operation for every fault of the block (60_exceptions.md R261, R266): the response
is the code with word 0 of the faulting operation, and no other state changes. Nothing is saved and control goes
nowhere (R266), so there is no return from a fault (R267). -/
def State.takeFault (s : State) (code : FaultCode) (word0 : U32) : State := s.respond (.fault code word0)

/-- The numeric value of a fault code (R260). -/
def faultNumber : FaultCode → Byte
  | .illegalCommand => 0x01
  | .reservedField => 0x02
  | .bitIndexRange => 0x03

/-- What is left on CMD and DIN once an operation is consumed (R42). -/
def State.consume (s : State) (cmd : List U32) (din : Bytes) : State := { s with cmd := cmd, din := din }

/-- The response to the most recent operation (R45). -/
def State.lastResponse (s : State) : Option Response := s.res.getLast?

/-- The byte-sequence part of a response (R44). -/
def Response.outBytes : Response → Bytes
  | .ok (.bytes v) => v
  | .ok (.poll v) => v.frame
  | .ok .unit => []
  | .ok (.bit _) => []
  | .ok (.word _) => []
  | .ok (.status _) => []
  | .fault _ _ => []

/-- DOUT (R44): the bytes that have left the block, in order. -/
def State.dout (s : State) : Bytes := s.res.flatMap Response.outBytes

/-- DIR_OUT (R46): the level of the direction line, which exists only with HAS_DIR. -/
def State.dirOut (s : State) : Option U1 := if s.cfg.hasDir then some s.dir else none

end Sys2Proof.Machine
end

