-- ==== Sys2Proof/Machine/Assembler.lean ====
section
/-! DEFINITION. The assembler unit's operations (42_assembler.md R202 to R204). -/

namespace Sys2Proof.Machine

/-- RX.BYTE b, ts (R202): the byte is stored, or dropped with `ovf` set when the buffer is full; the timestamp is
written in both cases. -/
def execRxByte (b : Byte) (ts : U32) (s : State) : Host.Outcome State Fault Refusal :=
  .next ((((s.storeByte b).setOvf s.ovfAfterByte).setLastTs ts).ok .unit)

/-- RX.POLL now (R203): deliver the frame and re-arm when `complete` holds, otherwise change nothing. The `ovf` in the
response is the flag before it is cleared. -/
def execRxPoll (now : U32) (s : State) : Host.Outcome State Fault Refusal :=
  .next (if s.complete now then (s.clearFill.setOvf (s.ovfAfterPoll now)).ok (.poll ⟨1, s.ovf, s.frame⟩)
    else s.ok (.poll ⟨0, s.ovf, []⟩))

/-- RX.STATUS (R204). -/
def execRxStatus (s : State) : Host.Outcome State Fault Refusal :=
  .next (s.ok (.status ⟨s.fill, s.ovf, s.last_ts⟩))

end Sys2Proof.Machine
end

