-- ==== Sys2Proof/Machine/Codec.lean ====
section
/-! DEFINITION. The codec unit's operations (41_codec.md R171 to R174). -/

namespace Sys2Proof.Machine

/-- BIT.PACK idx, v, nbits (R171): one byte read, then written with bit `idx mod 8` replaced; BitIndexRange when the
bounds check of R170 fails. -/
def execBitPack (idx : U16) (v : U1) (nbits : U32) (s : State) : Host.Outcome State Fault Refusal :=
  .next (match bitAddr s.cfg idx nbits with
    | none => s.takeFault .bitIndexRange (Instr.word0 (.bitPack idx v nbits))
    | some (a, p) => (s.memWrite a (packBit (s.memRead a) p v)).ok .unit)

/-- BIT.READ idx, nbits (R172): bit `idx mod 8` of one byte; BitIndexRange when the bounds check of R170 fails. -/
def execBitRead (idx : U16) (nbits : U32) (s : State) : Host.Outcome State Fault Refusal :=
  .next (match bitAddr s.cfg idx nbits with
    | none => s.takeFault .bitIndexRange (Instr.word0 (.bitRead idx nbits))
    | some (a, p) => s.ok (.bit (readBit (s.memRead a) p)))

/-- W16.TO value (R173). -/
def execW16To (value : U16) (s : State) : Host.Outcome State Fault Refusal :=
  .next (s.ok (.bytes (toWire16 value)))

/-- W16.FROM hi, lo (R174). -/
def execW16From (hi lo : Byte) (s : State) : Host.Outcome State Fault Refusal :=
  .next (s.ok (.word (fromWire16 hi lo)))

end Sys2Proof.Machine
end

