-- ==== Sys2Proof/Machine/Checksum.lean ====
section
/-! DEFINITION. The checksum functions of 40_crc.md R130 to R132, shared by the CRC unit's operations. -/

namespace Sys2Proof.Machine

/-- One shift round of `crc_step` (R130): shift right, and XOR the reversed polynomial if the bit shifted out is 1. -/
def crcRound (c : U16) : U16 :=
  if c.getLsbD 0 then (c >>> 1) ^^^ crcPolyRev else c >>> 1

/-- `k` shift rounds. -/
def crcRounds : Nat → U16 → U16
  | 0, c => c
  | k + 1, c => crcRounds k (crcRound c)

/-- `crc_step` of R130: XOR the byte into the low 8 bits, then 8 rounds. -/
def crcStep (c : U16) (b : Byte) : U16 := crcRounds 8 (c ^^^ b.setWidth 16)

/-- `crc_step` over a byte sequence, in order, from any start value. -/
def crcFrom (c : U16) (s : Bytes) : U16 := s.foldl crcStep c

/-- `crc16` of R131: from the initial value 0xFFFF. -/
def crc16 (s : Bytes) : U16 := crcFrom crcInitValue s

/-- `verify` of R132: 1 iff the checksum of all but the last two bytes is the trailer read little-endian; 0 for fewer
than two bytes (decision D8). -/
def verify (f : Bytes) : U1 :=
  if f.length < 2 then 0
  else if crc16 (f.take (f.length - 2)) = fromLe16 (f.getD (f.length - 2) 0) (f.getD (f.length - 1) 0) then 1
  else 0

/-- The frame CRC.APPEND builds from a body (R138). -/
def appendCrc (s : Bytes) : Bytes := s ++ le16 (crc16 s)

end Sys2Proof.Machine
end

