-- ==== Sys2Proof/Machine/Crc.lean ====
section
/-! DEFINITION. The CRC unit's operations (40_crc.md R133 to R138). Only CRC.INIT and CRC.UPDATE write `crc`, only
CRC.READ reads it besides (10_state.md R33). -/

namespace Sys2Proof.Machine

/-- CRC.INIT (R133). -/
def execCrcInit (s : State) : Host.Outcome State Fault Refusal :=
  .next ((s.setCrc crcInitValue).ok .unit)

/-- CRC.UPDATE b (R134). -/
def execCrcUpdate (b : Byte) (s : State) : Host.Outcome State Fault Refusal :=
  .next ((s.setCrc (crcStep s.crc b)).ok .unit)

/-- CRC.READ (R135). -/
def execCrcRead (s : State) : Host.Outcome State Fault Refusal :=
  .next (s.ok (.word s.crc))

/-- CRC.COMPUTE bytes (R136). -/
def execCrcCompute (bytes : Bytes) (s : State) : Host.Outcome State Fault Refusal :=
  .next (s.ok (.word (crc16 bytes)))

/-- CRC.VERIFY frame (R137). -/
def execCrcVerify (frame : Bytes) (s : State) : Host.Outcome State Fault Refusal :=
  .next (s.ok (.bit (verify frame)))

/-- CRC.APPEND bytes (R138). -/
def execCrcAppend (bytes : Bytes) (s : State) : Host.Outcome State Fault Refusal :=
  .next (s.ok (.bytes (appendCrc bytes)))

end Sys2Proof.Machine
end

