-- ==== Sys2Proof/Machine/Direction.lean ====
section
/-! DEFINITION. The direction unit's operations (43_direction.md R240, R241). -/

namespace Sys2Proof.Machine

/-- DIR.TX (R240): transmit mode where the direction line exists, no effect where it does not (R244). -/
def execDirTx (s : State) : Host.Outcome State Fault Refusal :=
  .next (s.assertTransmit.ok .unit)

/-- DIR.RX (R241): receive mode. -/
def execDirRx (s : State) : Host.Outcome State Fault Refusal :=
  .next (s.assertReceive.ok .unit)

end Sys2Proof.Machine
end

