-- ==== Sys2Proof/Machine/Dispatch.lean ====
section
/-! DEFINITION. What each operation does: one arm per constructor of Instr (30_encoding.md R96). -/

namespace Sys2Proof.Machine

def exec (i : Instr) (s : State) : Host.Outcome State Fault Refusal :=
  match i with
  | .crcInit => Sys2Proof.Machine.execCrcInit s
  | .crcUpdate b => Sys2Proof.Machine.execCrcUpdate b s
  | .crcRead => Sys2Proof.Machine.execCrcRead s
  | .crcCompute bytes => Sys2Proof.Machine.execCrcCompute bytes s
  | .crcVerify frame => Sys2Proof.Machine.execCrcVerify frame s
  | .crcAppend bytes => Sys2Proof.Machine.execCrcAppend bytes s
  | .bitPack idx v nbits => Sys2Proof.Machine.execBitPack idx v nbits s
  | .bitRead idx nbits => Sys2Proof.Machine.execBitRead idx nbits s
  | .w16To value => Sys2Proof.Machine.execW16To value s
  | .w16From hi lo => Sys2Proof.Machine.execW16From hi lo s
  | .rxByte b ts => Sys2Proof.Machine.execRxByte b ts s
  | .rxPoll now => Sys2Proof.Machine.execRxPoll now s
  | .rxStatus => Sys2Proof.Machine.execRxStatus s
  | .dirTx => Sys2Proof.Machine.execDirTx s
  | .dirRx => Sys2Proof.Machine.execDirRx s

end Sys2Proof.Machine
end

