-- ==== Sys2Proof/Machine/Step.lean ====
section
/-! DEFINITION. One step of the machine: the next operation on the command port, whole (10_state.md R42, 00_scope.md
R13), and the placing of an instruction where the step takes it. -/

namespace Sys2Proof.Machine

/-- One step. A whole operation is consumed and runs; a rejected one is consumed by the length rule of 30_encoding.md
R94 and takes its fault (60_exceptions.md R261); while no whole operation has arrived the block waits (20_memory.md
R73; log 5). -/
def step (s : State) : Host.Outcome State Fault Refusal :=
  match decode s.cmd s.din with
  | .waiting => .next s
  | .rejected code w0 cmd din => .next ((s.consume cmd din).takeFault code w0)
  | .op i cmd din => exec i (s.consume cmd din)

/-- `s` with the instruction whose bits are `w` at the head of the two input streams, so that the very next step runs
exactly it (log 6, log 12). -/
def State.withFetchWord (s : State) (nbits w : Nat) : State :=
  { s with cmd := (streamsOfNumber nbits w).1 ++ s.cmd, din := (streamsOfNumber nbits w).2 ++ s.din }

end Sys2Proof.Machine
end

