-- ==== Sys2Proof/Machine/Assembly.lean ====
section
/-! DEFINITION. The assembler syntax and the pseudo-operations of 30_encoding.md R100 and R101, as terms: one
constructor for each line of R100's table with the operands as numbers (log 14), and one for each line of R101's. -/

namespace Sys2Proof.Machine

/-- A line of assembly: a mnemonic with its operands as the program writes them, any numbers (R100). -/
inductive AsmLine where
  | crcInit
  | crcUpdate (b : Nat)
  | crcRead
  | crcCompute (bytes : List Nat)
  | crcVerify (bytes : List Nat)
  | crcAppend (bytes : List Nat)
  | bitPack (idx v nbits : Nat)
  | bitRead (idx nbits : Nat)
  | w16To (value : Nat)
  | w16From (hi lo : Nat)
  | rxByte (b ts : Nat)
  | rxPoll (now : Nat)
  | rxStatus
  | dirTx
  | dirRx
deriving DecidableEq, Repr

/-- A number as an operand of `width` bits; none when it does not fit its field (R100). -/
def operand (width n : Nat) : Option (BitVec width) :=
  if n < 2 ^ width then some (BitVec.ofNat width n) else none

/-- A byte list as an operand; none when an element is no byte or the list is longer than 65535 (R100). -/
def byteList (ns : List Nat) : Option Bytes :=
  if ns.length ≤ maxData then ns.mapM (operand 8) else none

/-- Assemble a line: the operation, or none for the assembler error of R100. -/
def assembleLine : AsmLine → Option Instr
  | .crcInit => some .crcInit
  | .crcUpdate b => (operand 8 b).map .crcUpdate
  | .crcRead => some .crcRead
  | .crcCompute bytes => (byteList bytes).map .crcCompute
  | .crcVerify bytes => (byteList bytes).map .crcVerify
  | .crcAppend bytes => (byteList bytes).map .crcAppend
  | .bitPack idx v nbits =>
    (operand 16 idx).bind fun i => (operand 1 v).bind fun b => (operand 32 nbits).map fun n => .bitPack i b n
  | .bitRead idx nbits => (operand 16 idx).bind fun i => (operand 32 nbits).map fun n => .bitRead i n
  | .w16To value => (operand 16 value).map .w16To
  | .w16From hi lo => (operand 8 hi).bind fun h => (operand 8 lo).map fun l => .w16From h l
  | .rxByte b ts => (operand 8 b).bind fun x => (operand 32 ts).map fun t => .rxByte x t
  | .rxPoll now => (operand 32 now).map .rxPoll
  | .rxStatus => some .rxStatus
  | .dirTx => some .dirTx
  | .dirRx => some .dirRx

/-- The pseudo-operations of R101. -/
inductive Pseudo where
  | crcBlock (bytes : Bytes)
  | crcOf (bytes : Bytes)
  | bitSet (idx : U16) (nbits : U32)
  | bitClr (idx : U16) (nbits : U32)
  | txBracket
deriving DecidableEq, Repr

/-- What a host program does: an operation of the block, or the host's own transport write, which waits for its
completion and is no operation of the block (43_direction.md R243). -/
inductive HostAction where
  | op (i : Instr)
  | transportWrite
deriving DecidableEq, Repr

/-- The expansion of R101, in order. -/
def Pseudo.expand : Pseudo → List HostAction
  | .crcBlock bytes => bytes.map fun b => .op (.crcUpdate b)
  | .crcOf bytes => .op .crcInit :: (bytes.map fun b => .op (.crcUpdate b)) ++ [.op .crcRead]
  | .bitSet idx nbits => [.op (.bitPack idx 1 nbits)]
  | .bitClr idx nbits => [.op (.bitPack idx 0 nbits)]
  | .txBracket => [.op .dirTx, .transportWrite, .op .dirRx]

/-- The operation of an action, if it is one. -/
def HostAction.instr : HostAction → Option Instr
  | .op i => some i
  | .transportWrite => none

/-- The operations the block sees of a pseudo-operation. -/
def Pseudo.operations (p : Pseudo) : List Instr := p.expand.filterMap HostAction.instr

end Sys2Proof.Machine
end

