-- ==== Sys2Proof/Machine/Environment.lean ====
section
/-! DEFINITION. What the world outside can do to the block (10_state.md R30, R42, R43, R48; 20_memory.md R71;
70_reset_and_hazards.md R290, R291), each a whole event between two operations. -/

namespace Sys2Proof.Machine

/-- The two contexts of the host that issue operations (R30). -/
inductive Context where
  | rx
  | main
deriving DecidableEq, Repr

/-- The context that issues an operation by the host's discipline (R30). The block does not check it (20_memory.md
R74, 60_exceptions.md R269). -/
def contextOf : Instr → Context
  | .rxByte _ _ => .rx
  | .crcInit | .crcUpdate _ | .crcRead | .crcCompute _ | .crcVerify _ | .crcAppend _ | .bitPack _ _ _ | .bitRead _ _
  | .w16To _ | .w16From _ _ | .rxPoll _ | .rxStatus | .dirTx | .dirRx => .main

/-- An event at the block's boundary. -/
inductive Event where
  /-- Words arrive on CMD and bytes on DIN, in pieces of any size (R42, R43). -/
  | input (words : List U32) (bytes : Bytes)
  /-- The host writes a byte of its caller buffer (R71). -/
  | writeCbuf (address : Nat) (value : Byte)
  /-- Power-on reset (R290), with any contents in `rxbuf`, which the reset leaves unspecified (R50). -/
  | powerOn (rxbuf : Vector Byte 256)
  /-- The block takes one step. -/
  | tick
deriving DecidableEq, Repr

/-- Words and bytes join the ends of the two input streams (R42, R43). -/
def State.input (s : State) (words : List U32) (bytes : Bytes) : State :=
  { s with cmd := s.cmd ++ words, din := s.din ++ bytes }

/-- Issue an operation: its words on CMD and its bytes on DIN. -/
def State.issue (s : State) (i : Instr) : State := s.input (encode i).1 (encode i).2

/-- Issue operations in order. -/
def State.issueAll (s : State) (ops : List Instr) : State := ops.foldl State.issue s

/-- Power-on reset (R290, R291): every register at its reset value, `rxbuf` any value, `cbuf` untouched as host
memory, the parameters as they are (R8). Words and bytes still on the ports belong to operations not accepted yet and
are dropped (DESIGN CHOICE, log 10); the responses already given stay given (R262). -/
def State.powerOn (s : State) (rxbuf : Vector Byte 256) : State :=
  { State.reset with cfg := s.cfg, rxbuf := rxbuf, cbuf := s.cbuf, res := s.res }

/-- The state after an event. A host write to an address that does not exist stops the model (log 11). -/
def applyEvent (e : Event) (s : State) : Host.Outcome State Fault Refusal :=
  match e with
  | .input words bytes => .next (s.input words bytes)
  | .writeCbuf a v => if a < s.cfg.cbufBytes.val then .next (s.memWrite a v) else .fault (.hostCbufAddress a)
  | .powerOn rxbuf => .next (s.powerOn rxbuf)
  | .tick => step s

/-- The state after a history of events, stopping at the first fault or refusal. -/
def runEvents : List Event → State → Host.Outcome State Fault Refusal
  | [], s => .next s
  | e :: es, s =>
    match applyEvent e s with
    | .next t => runEvents es t
    | .fault r => .fault r
    | .refused r => .refused r

end Sys2Proof.Machine
end

