-- ==== Sys2Proof/Machine/Wire.lean ====
section
/-! DEFINITION. The wire format of the frames the block carries (30_encoding.md R102 to R109): the constants and the
frame shapes. No operation of the block interprets a frame's contents (R104, R108); these are the words in which
claims about frames are written. -/

namespace Sys2Proof.Machine

/-- The function codes the source lists (R104). -/
inductive FunctionCode where
  | readCoils
  | readHoldingRegisters
  | readInputRegisters
  | writeSingleCoil
  | writeSingleRegister
  | writeMultipleRegisters
deriving DecidableEq, Repr

/-- The code of R104's table. -/
def functionByte : FunctionCode → Byte
  | .readCoils => 0x01
  | .readHoldingRegisters => 0x03
  | .readInputRegisters => 0x04
  | .writeSingleCoil => 0x05
  | .writeSingleRegister => 0x06
  | .writeMultipleRegisters => 0x10

/-- The exception codes of R106. -/
inductive ExceptionCode where
  | illegalFunction
  | illegalDataAddress
  | illegalDataValue
  | slaveDeviceFailure
deriving DecidableEq, Repr

/-- The code of R106's table. -/
def exceptionByte : ExceptionCode → Byte
  | .illegalFunction => 0x01
  | .illegalDataAddress => 0x02
  | .illegalDataValue => 0x03
  | .slaveDeviceFailure => 0x04

/-- An RTU frame: `unit_addr(1) | function_code(1) | payload(N) | crc16_le(2)` (R102). -/
def rtuFrame (unit fc : Byte) (payload : Bytes) : Bytes := appendCrc (unit :: fc :: payload)

/-- A valid frame: at least 4 bytes, and it verifies (R103). Callers accept a candidate on this test
(42_assembler.md R206). -/
def validFrame (f : Bytes) : Bool := decide (4 ≤ f.length) && decide (verify f = 1)

/-- An exception response: `unit_addr | (function_code | 0x80) | exception_code` and its trailer (R105). -/
def exceptionFrame (unit fc : Byte) (code : ExceptionCode) : Bytes :=
  rtuFrame unit (fc ||| 0x80) [exceptionByte code]

/-- Coil write values: 0xFF00 is ON, 0x0000 is OFF, any other value is a protocol violation (R107). -/
def coilValue (on : Bool) : U16 := if on then 0xFF00 else 0x0000

/-- The state a coil write value names, none for a protocol violation (R107). -/
def coilOfValue (v : U16) : Option Bool := if v = 0xFF00 then some true else if v = 0x0000 then some false else none

/-- A unit address a device may have: 1..247; 0 is broadcast (R108). -/
def isUnitAddress (unit : Byte) : Bool := decide (1 ≤ unit.toNat) && decide (unit.toNat ≤ 247)

/-- The payload of a read response: `[byte_count, value_hi, value_lo, ...]`, the byte count twice the number of
registers, the registers in order (R109). None when no byte is twice the number of registers (DEDUCED, log 19). -/
def readResponsePayload (values : List U16) : Option Bytes :=
  if 2 * values.length < 2 ^ 8 then some (BitVec.ofNat 8 (2 * values.length) :: values.flatMap toWire16) else none

/-- A slave's read response, `[addr, fc, byte_count, values...]` and its trailer (R109, R102). -/
def readResponse (unit fc : Byte) (values : List U16) : Option Bytes :=
  (readResponsePayload values).map (rtuFrame unit fc)

/-- A payload is a read response to a request for `requested` registers: its byte count is twice that number, and as
many bytes of values follow (R109). -/
def answersRead (requested : Nat) (payload : Bytes) : Bool :=
  match payload with
  | [] => false
  | count :: values => decide (count.toNat = 2 * requested) && decide (values.length = 2 * requested)

/-- A write response echoes the 4-byte address and value payload exactly (R109). -/
def writeResponsePayload (request : Vector Byte 4) : Bytes := request.toList

end Sys2Proof.Machine
end

