-- ==== Sys2Proof/Safety.lean ====
section
/-! DEFINITION. What counts as a safe run, in the terms claims use: fault-free runs (60_exceptions.md R262), the
invariant of the machine, runs of operation lists, the four units, and the host duties of 70_reset_and_hazards.md that
claims take as premises (R300 to R307). -/

namespace Sys2Proof.Machine

/-! ### Runs -/

/-- A run so far has no fault response: the premise of R262. -/
def State.faultFree (s : State) : Bool :=
  s.res.all fun r => match r with
    | .ok _ => true
    | .fault _ _ => false

/-- Run a list of operations in order, stopping at the first machine fault or refusal. -/
def execAll : List Instr → State → Host.Outcome State Fault Refusal
  | [], s => .next s
  | i :: is, s =>
    match exec i s with
    | .next t => execAll is t
    | .fault r => .fault r
    | .refused r => .refused r

/-! ### The invariant -/

/-- What holds at reset and after every step: `fill` stays in 0..256 (10_state.md R34); without the direction line
`dir` is 0 (R37); `ovf` is set only while the buffer is full (R36); the caller buffer is in canonical form and lists
only addresses that exist (20_memory.md R61). -/
structure State.Inv (s : State) : Prop where
  fill_le : s.fill.toNat ≤ 256
  dir_absent : s.cfg.hasDir = false → s.dir = 0
  ovf_full : s.ovf = 1 → s.fill.toNat = 256
  cbuf_wf : Memory.wf s.cbuf = true
  cbuf_range : ∀ c ∈ s.cbuf, c.1 < s.cfg.cbufBytes.val

/-- Two states that differ at most in buffer entries at or above `fill` (R38, R41 (b)). -/
structure SameButStale (s t : State) : Prop where
  rest : t = { s with rxbuf := t.rxbuf }
  held : ∀ k : Nat, k < s.fill.toNat → ∀ h : k < 256, t.rxbuf[k] = s.rxbuf[k]

/-! ### Units -/

/-- The four units of 00_scope.md R1. -/
inductive LinkUnit where
  | crc
  | codec
  | assembler
  | direction
deriving DecidableEq, Repr

/-- The unit of an operation: the high nibble of its code (30_encoding.md R96). -/
def unitOf : Instr → LinkUnit
  | .crcInit | .crcUpdate _ | .crcRead | .crcCompute _ | .crcVerify _ | .crcAppend _ => .crc
  | .bitPack _ _ _ | .bitRead _ _ | .w16To _ | .w16From _ _ => .codec
  | .rxByte _ _ | .rxPoll _ | .rxStatus => .assembler
  | .dirTx | .dirRx => .direction

/-- The operations of one unit in a list. -/
def onlyUnit (u : LinkUnit) (ops : List Instr) : List Instr := ops.filter fun i => decide (unitOf i = u)

/-- The operations that write no state but their response (R72: the read-only operations). -/
def readsOnly : Instr → Bool
  | .crcRead | .crcCompute _ | .crcVerify _ | .crcAppend _ | .bitRead _ _ | .w16To _ | .w16From _ _ | .rxStatus => true
  | .crcInit | .crcUpdate _ | .bitPack _ _ _ | .rxByte _ _ | .rxPoll _ | .dirTx | .dirRx => false

/-- A BIT.PACK aimed at the caller-buffer byte `a`. -/
def packsByte (a : Nat) : Instr → Bool
  | .bitPack idx _ _ => decide (idx.toNat / 8 = a)
  | .crcInit | .crcUpdate _ | .crcRead | .crcCompute _ | .crcVerify _ | .crcAppend _ | .bitRead _ _ | .w16To _
  | .w16From _ _ | .rxByte _ _ | .rxPoll _ | .rxStatus | .dirTx | .dirRx => false

/-! ### Reception schedules (42_assembler.md R207 to R210) -/

/-- The byte an operation hands to the assembler. -/
def receivedByte : Instr → Option Byte
  | .rxByte b _ => some b
  | .crcInit | .crcUpdate _ | .crcRead | .crcCompute _ | .crcVerify _ | .crcAppend _ | .bitPack _ _ _ | .bitRead _ _
  | .w16To _ | .w16From _ _ | .rxPoll _ | .rxStatus | .dirTx | .dirRx => none

/-- The bytes a list of operations hands to the assembler, in order. -/
def receivedBytes (ops : List Instr) : Bytes := ops.filterMap receivedByte

/-- The timestamp of the last byte of a list of operations, `last` when it hands over none. -/
def lastArrival : Option U32 → List Instr → Option U32
  | last, [] => last
  | _, .rxByte _ ts :: ops => lastArrival (some ts) ops
  | last, _ :: ops => lastArrival last ops

/-- No poll of the list sees a silence of `delay` or more since the byte before it (R210's poll schedules); `last` is
the timestamp of the byte before the list, if there is one. -/
def silencesBelow (delay : U32) : Option U32 → List Instr → Bool
  | _, [] => true
  | _, .rxByte _ ts :: ops => silencesBelow delay (some ts) ops
  | some ts, .rxPoll now :: ops => decide (elapsed now ts < delay) && silencesBelow delay (some ts) ops
  | none, .rxPoll _ :: ops => silencesBelow delay none ops
  | last, _ :: ops => silencesBelow delay last ops

/-- A response that delivers no frame. -/
def deliversNothing : Response → Bool
  | .ok (.poll v) => decide (v.ready = 0)
  | .ok .unit | .ok (.bit _) | .ok (.word _) | .ok (.bytes _) | .ok (.status _) | .fault _ _ => true

/-! ### Host duties (70_reset_and_hazards.md) -/

/-- R293 step 7: the caller buffer holds at least `ceil(nbits / 8)` bytes. -/
def bufferSized (cfg : Config) (nbits : U32) : Bool := decide ((nbits.toNat + 7) / 8 ≤ cfg.cbufBytes.val)

/-- R243, R303: the direction operations of a list come as closed brackets DIR.TX … DIR.RX; `transmitting` says whether
one is open. A DIR.TX inside an open bracket and a DIR.RX outside one answer false; the spec forbids neither (DESIGN
CHOICE, log 18). This is a duty of the host; the block checks no order (R243). -/
def bracketed : Bool → List Instr → Bool
  | transmitting, [] => !transmitting
  | transmitting, .dirTx :: ops => !transmitting && bracketed true ops
  | transmitting, .dirRx :: ops => transmitting && bracketed false ops
  | transmitting, _ :: ops => bracketed transmitting ops

/-- R304: in a list of operations every CRC.UPDATE and CRC.READ comes after a CRC.INIT; `started` says whether one
has been issued. -/
def streamsStarted : Bool → List Instr → Bool
  | _, [] => true
  | _, .crcInit :: ops => streamsStarted true ops
  | started, .crcUpdate _ :: ops => started && streamsStarted started ops
  | started, .crcRead :: ops => started && streamsStarted started ops
  | started, _ :: ops => streamsStarted started ops

/-- R301 (and R305): the poll's true time is not before the last byte's, and less than one wrap after it; `lastMs` and
`nowMs` are unwrapped milliseconds whose low 32 bits are `last_ts` and the poll's `now`. -/
structure PollNotEarly (s : State) (now : U32) (lastMs nowMs : Nat) : Prop where
  last_is : s.last_ts = BitVec.ofNat 32 lastMs
  now_is : now = BitVec.ofNat 32 nowMs
  order : lastMs ≤ nowMs
  within_wrap : nowMs - lastMs < 2 ^ 32

end Sys2Proof.Machine
end

