-- ==== Sys2Proof/Certificates/Slice0/Obligations.lean ====
section
/-! DEFINITION. The statements for the provers. Each docstring names the rules of spec/ it formalises. A response stands
at the end of `res`, which is how the model holds the port RES (log 3). Every statement ranges over every value of the
OPEN parameters (log 1) and over every content of the caller buffer, the assembler buffer and the ports. -/

namespace Sys2Proof

/-- The machine-readable table of 30_encoding.md R96 (opcode_table.json): match, mask and format of word 0. -/
def specTable : List (U32 × U32 × Format) :=
  [(0x10000000, 0xFFFFFFFF, .f0), (0x11000000, 0xFF00FFFF, .f0), (0x12000000, 0xFFFFFFFF, .f0),
   (0x13000000, 0xFFFF0000, .f2), (0x14000000, 0xFFFF0000, .f2), (0x15000000, 0xFFFF0000, .f2),
   (0x20000000, 0xFFFE0000, .f1), (0x21000000, 0xFFFF0000, .f1), (0x22000000, 0xFFFF0000, .f0),
   (0x23000000, 0xFF00FF00, .f0), (0x30000000, 0xFF00FFFF, .f1), (0x31000000, 0xFFFFFFFF, .f1),
   (0x32000000, 0xFFFFFFFF, .f0), (0x40000000, 0xFFFFFFFF, .f0), (0x41000000, 0xFFFFFFFF, .f0)]

/-- How many operand words and data bytes follow word 0 (R91 to R94). -/
def operandLengths : Format → U32 → Nat × Nat
  | .f0, _ => (0, 0)
  | .f1, _ => (1, 0)
  | .f2, w0 => (0, w0.toNat % 65536)

/-- The table of a table-driven checksum: entry k is eight rounds on the value k (R143). -/
def crcTable : List U16 := (List.range 256).map fun k => Machine.crcRounds 8 (BitVec.ofNat 16 k)

/-- One byte of a table-driven checksum (R143). -/
def tableStep (c : U16) (b : Byte) : U16 := (c >>> 8) ^^^ crcTable.getD ((c.extractLsb' 0 8) ^^^ b).toNat 0

/-- A line of R100 assembles to these words on CMD and these bytes on DIN. -/
def Assembles (l : Machine.AsmLine) (words : List U32) (data : Bytes) : Prop :=
  ∃ i : Instr, Machine.assembleLine l = some i ∧ encode i = (words, data)

/-- RX.POLL completes, and its ready bit is 1 exactly when `p`: it then delivers the bytes held and empties the
assembler, and otherwise it answers no frame and keeps them (R203). -/
def PollDeliversIff (s : Machine.State) (now : U32) (p : Prop) : Prop :=
  ∃ (t : Machine.State) (v : Machine.PollRecord), Machine.exec (.rxPoll now) s = .next t ∧
    t.res = s.res ++ [.ok (.poll v)] ∧ (v.ready = 1 ↔ p) ∧
    (v.ready = 1 → v.frame = s.frame ∧ t.fill = 0) ∧ (v.ready = 0 → v.frame = [] ∧ t.fill = s.fill)

/-- One shift round of R130 on numbers. -/
def natRound (x : Nat) : Nat := if x % 2 = 1 then (x / 2) ^^^ 0xA001 else x / 2

end Sys2Proof

open Sys2Proof Sys2Proof.Machine

/-! ### Encoding -/

/-- R90 to R96: for every well-formed operation, whatever follows it on the two streams, the decoder reads back what
the encoder wrote. -/
def Obligations.DecodeOfEncodeGivesBackTheInstruction : Prop :=
  ∀ (i : Instr), i.wellFormed = true → ∀ (cmd : List U32) (din : Bytes),
    decode ((encode i).1 ++ cmd) ((encode i).2 ++ din) = .op i cmd din

/-- R94, R95: what the decoder accepts is exactly the encoding of what it answers, so each accepted word has one
meaning and no bit of it is dropped. -/
def Obligations.DecodedOperationReencodesToItsStreams : Prop :=
  ∀ (cmd cmd' : List U32) (din din' : Bytes) (i : Instr), decode cmd din = .op i cmd' din' →
    i.wellFormed = true ∧ cmd = (encode i).1 ++ cmd' ∧ din = (encode i).2 ++ din'

/-- R96, R100: words of 95_test_vectors.md P1 to P4, one or more for each unit, decode to the operations they stand
for. -/
def Obligations.SpecWordsDecodeToTheirOperations : Prop :=
  decode [0x110A0000] [] = .op (.crcUpdate 0x0A) [] [] ∧
  decode [0x15000006] [0x01, 0x03, 0x00, 0x0A, 0x00, 0x01] =
    .op (.crcAppend [0x01, 0x03, 0x00, 0x0A, 0x00, 0x01]) [] [] ∧
  decode [0x20010009, 0x00000010] [] = .op (.bitPack 9 1 16) [] [] ∧
  decode [0x21000003, 0x00000010] [] = .op (.bitRead 3 16) [] [] ∧
  decode [0x230400D2] [] = .op (.w16From 0x04 0xD2) [] [] ∧
  decode [0x30D20000, 0x000003EC] [] = .op (.rxByte 0xD2 1004) [] [] ∧
  decode [0x31000000, 0x000003F1] [] = .op (.rxPoll 1009) [] [] ∧
  decode [0x40000000] [] = .op .dirTx [] []

/-- R97, R94, R260, R261: every operation code outside R96's table faults IllegalCommand, consumes word 0 only, and
changes no state. -/
def Obligations.UnassignedOpcodeFaultsIllegalCommand : Prop :=
  ∀ (s : State) (w0 : U32) (rest : List U32), s.cmd = w0 :: rest →
    (w0.toNat / 2 ^ 24 ≤ 0x0F ∨ (0x16 ≤ w0.toNat / 2 ^ 24 ∧ w0.toNat / 2 ^ 24 ≤ 0x1F) ∨
      (0x24 ≤ w0.toNat / 2 ^ 24 ∧ w0.toNat / 2 ^ 24 ≤ 0x2F) ∨
      (0x33 ≤ w0.toNat / 2 ^ 24 ∧ w0.toNat / 2 ^ 24 ≤ 0x3F) ∨ 0x42 ≤ w0.toNat / 2 ^ 24) →
    step s = .next { s with cmd := rest, res := s.res ++ [.fault .illegalCommand w0] }

/-- R96, R97, R94: for every row of the opcode table and every word 0 with its code whose operands have arrived, the
word is accepted exactly when it matches the row under its mask; otherwise the operation's whole length is consumed,
the fault is ReservedField, and no state changes. -/
def Obligations.AssignedOpcodeIsAcceptedOrFaultsReservedField : Prop :=
  ∀ (m k : U32) (f : Format), (m, k, f) ∈ specTable →
    ∀ (s : State) (w0 : U32) (xs cmd : List U32) (ds din : Bytes),
      s.cmd = w0 :: xs ++ cmd → s.din = ds ++ din → (xs.length, ds.length) = operandLengths f w0 →
      w0 >>> 24 = m >>> 24 →
      (w0 &&& k = m → ∃ i : Instr, decode s.cmd s.din = .op i cmd din ∧ i.word0 = w0) ∧
      (w0 &&& k ≠ m →
        step s = .next { s with cmd := cmd, din := din, res := s.res ++ [.fault .reservedField w0] })

/-- R98, R170, R171, R172: a BIT.PACK or BIT.READ word with a reserved bit set faults ReservedField whatever its index;
with none set, an index at or above the declared count or outside the caller buffer faults BitIndexRange, carrying
word 0, and changes no state. -/
def Obligations.BitOperationsCheckReservedFieldThenIndex : Prop :=
  ∀ (s : State) (w0 nbits : U32) (cmd : List U32), s.cmd = w0 :: nbits :: cmd →
    (((w0 >>> 24 = 0x20 ∧ w0 &&& 0x00FE0000 ≠ 0) ∨ (w0 >>> 24 = 0x21 ∧ w0 &&& 0x00FF0000 ≠ 0)) →
      step s = .next { s with cmd := cmd, res := s.res ++ [.fault .reservedField w0] }) ∧
    ((w0 &&& 0xFFFE0000 = 0x20000000 ∨ w0 &&& 0xFFFF0000 = 0x21000000) →
      (nbits.toNat ≤ w0.toNat % 65536 ∨ s.cfg.cbufBytes.val ≤ w0.toNat % 65536 / 8) →
      step s = .next { s with cmd := cmd, res := s.res ++ [.fault .bitIndexRange w0] })

/-- R100: an assembler line whose operands fit their fields assembles to the words of R100's table and, for a byte list,
the bytes; a line with an operand that does not fit does not assemble. The lines stand as terms (log 14). -/
def Obligations.AssemblerLinesGiveTheTableWords : Prop :=
  (Assembles .crcInit [0x10000000] [] ∧ Assembles .crcRead [0x12000000] [] ∧ Assembles .rxStatus [0x32000000] [] ∧
    Assembles .dirTx [0x40000000] [] ∧ Assembles .dirRx [0x41000000] []) ∧
  (∀ b : Nat,
    (b ≤ 255 → Assembles (.crcUpdate b) [BitVec.ofNat 32 (0x11000000 + b * 65536)] []) ∧
    (¬ b ≤ 255 → assembleLine (.crcUpdate b) = none)) ∧
  (∀ bytes : List Nat,
    ((∀ x ∈ bytes, x ≤ 255) ∧ bytes.length ≤ 65535 →
      Assembles (.crcCompute bytes) [BitVec.ofNat 32 (0x13000000 + bytes.length)] (bytes.map (BitVec.ofNat 8)) ∧
      Assembles (.crcVerify bytes) [BitVec.ofNat 32 (0x14000000 + bytes.length)] (bytes.map (BitVec.ofNat 8)) ∧
      Assembles (.crcAppend bytes) [BitVec.ofNat 32 (0x15000000 + bytes.length)] (bytes.map (BitVec.ofNat 8))) ∧
    (¬ ((∀ x ∈ bytes, x ≤ 255) ∧ bytes.length ≤ 65535) →
      assembleLine (.crcCompute bytes) = none ∧ assembleLine (.crcVerify bytes) = none ∧
      assembleLine (.crcAppend bytes) = none)) ∧
  (∀ idx v nbits : Nat,
    (idx ≤ 65535 ∧ v ≤ 1 ∧ nbits ≤ 2 ^ 32 - 1 → Assembles (.bitPack idx v nbits)
      [BitVec.ofNat 32 (0x20000000 + v * 65536 + idx), BitVec.ofNat 32 nbits] []) ∧
    (¬ (idx ≤ 65535 ∧ v ≤ 1 ∧ nbits ≤ 2 ^ 32 - 1) → assembleLine (.bitPack idx v nbits) = none)) ∧
  (∀ idx nbits : Nat,
    (idx ≤ 65535 ∧ nbits ≤ 2 ^ 32 - 1 → Assembles (.bitRead idx nbits)
      [BitVec.ofNat 32 (0x21000000 + idx), BitVec.ofNat 32 nbits] []) ∧
    (¬ (idx ≤ 65535 ∧ nbits ≤ 2 ^ 32 - 1) → assembleLine (.bitRead idx nbits) = none)) ∧
  (∀ value : Nat,
    (value ≤ 65535 → Assembles (.w16To value) [BitVec.ofNat 32 (0x22000000 + value)] []) ∧
    (¬ value ≤ 65535 → assembleLine (.w16To value) = none)) ∧
  (∀ hi lo : Nat,
    (hi ≤ 255 ∧ lo ≤ 255 → Assembles (.w16From hi lo) [BitVec.ofNat 32 (0x23000000 + hi * 65536 + lo)] []) ∧
    (¬ (hi ≤ 255 ∧ lo ≤ 255) → assembleLine (.w16From hi lo) = none)) ∧
  (∀ b ts : Nat,
    (b ≤ 255 ∧ ts ≤ 2 ^ 32 - 1 → Assembles (.rxByte b ts)
      [BitVec.ofNat 32 (0x30000000 + b * 65536), BitVec.ofNat 32 ts] []) ∧
    (¬ (b ≤ 255 ∧ ts ≤ 2 ^ 32 - 1) → assembleLine (.rxByte b ts) = none)) ∧
  (∀ now : Nat,
    (now ≤ 2 ^ 32 - 1 → Assembles (.rxPoll now) [0x31000000, BitVec.ofNat 32 now] []) ∧
    (¬ now ≤ 2 ^ 32 - 1 → assembleLine (.rxPoll now) = none))

/-! ### Steps and runs -/

/-- R13, R42: when a whole operation stands at the head of the streams, the step is its `exec` on the state whose two
streams are what the decoder left; nothing else is added around `exec`. -/
def Obligations.StepRunsTheDecodedOperation : Prop :=
  ∀ (s : State) (i : Instr) (cmd : List U32) (din : Bytes), decode s.cmd s.din = .op i cmd din →
    step s = exec i { s with cmd := cmd, din := din }

/-- The model's reading of R42 and R73 (log 5, DEDUCED): with no command word, with word 1 missing, or with fewer data
bytes than B16 says, the block waits and nothing changes. -/
def Obligations.StepWaitsForAnIncompleteOperation : Prop :=
  ∀ (s : State),
    (s.cmd = [] ∨
      (∃ w0 : U32, s.cmd = [w0] ∧ ∃ m k, (m, k, Format.f1) ∈ specTable ∧ w0 >>> 24 = m >>> 24) ∨
      (∃ (w0 : U32) (rest : List U32), s.cmd = w0 :: rest ∧ s.din.length < w0.toNat % 65536 ∧
        ∃ m k, (m, k, Format.f2) ∈ specTable ∧ w0 >>> 24 = m >>> 24)) →
    step s = .next s

/-- R13, R261 (log 2): the block never stops; every step answers a next state, whatever the words. -/
def Obligations.EveryStepAnswersANextState : Prop :=
  ∀ s : State, ∃ t : State, step s = .next t

/-- R45: a step that does not wait gives exactly one response, after all earlier ones. That a step with no whole operation
before it waits, gives none and changes nothing is the model's reading (log 5, DEDUCED). -/
def Obligations.EveryOperationGetsOneResponse : Prop :=
  ∀ s t : State, step s = .next t →
    (decode s.cmd s.din = .waiting ∧ t = s) ∨ (decode s.cmd s.din ≠ .waiting ∧ ∃ r, t.res = s.res ++ [r])

/-- R261, R260: a step whose response is a fault changes nothing but the consumed streams and the response, carries word
0 of the faulting operation, and BitIndexRange comes only from BIT.PACK and BIT.READ. -/
def Obligations.FaultingStepChangesNoState : Prop :=
  ∀ (s t : State) (c : FaultCode) (w : U32), step s = .next t → t.res = s.res ++ [.fault c w] →
    t = { s with cmd := t.cmd, din := t.din, res := t.res } ∧ s.cmd.head? = some w ∧
      (c = .bitIndexRange → w.toNat / 2 ^ 24 = 0x20 ∨ w.toNat / 2 ^ 24 = 0x21)

/-- R8, R39, R262: over any history of operations, host writes, arrivals and resets, the parameters stay as they are
and no response is ever taken back, so a run that is fault-free at its end was so throughout. That the responses given
survive a power-on reset too is the model's choice (log 10, DESIGN CHOICE); R262 speaks of the fault responses of a
run. -/
def Obligations.HistoriesKeepParametersAndResponses : Prop :=
  ∀ (es : List Event) (s t : State), runEvents es s = .next t →
    t.cfg = s.cfg ∧ s.res <+: t.res ∧ (t.faultFree = true → s.faultFree = true)

/-- R42, R75: issuing a list of well-formed operations on the ports and stepping once for each gives the same outcome
as running their meanings in order. -/
def Obligations.SteppingIssuedOperationsRunsThemInOrder : Prop :=
  ∀ (ops : List Instr) (s : State), (∀ i ∈ ops, i.wellFormed = true) → s.cmd = [] → s.din = [] →
    Host.Core.run core ops.length (s.issueAll ops) = execAll ops s

/-! ### Reset and the invariant -/

/-- R50, R290, R291, R8: the values the spec gives at reset, at State.reset and after a power-on reset of any state, which
leaves any contents in `rxbuf` and does not touch the caller buffer or the parameters. -/
def Obligations.ResetLeavesTheSpecifiedValues : Prop :=
  (State.reset.dir = 0 ∧ State.reset.fill = 0 ∧ State.reset.ovf = 0 ∧ State.reset.last_ts = 0 ∧
    State.reset.crc = 0xFFFF) ∧
  ∀ (s : State) (rxbuf : Vector Byte 256), ∃ t : State, applyEvent (.powerOn rxbuf) s = .next t ∧
    t.dir = 0 ∧ t.fill = 0 ∧ t.ovf = 0 ∧ t.last_ts = 0 ∧ t.crc = 0xFFFF ∧ t.rxbuf = rxbuf ∧
    t.cbuf = s.cbuf ∧ (∀ a : Nat, t.memRead a = s.memRead a) ∧ t.cfg = s.cfg

/-- R242, R50, R290, R46: receive mode is the reset value, at State.reset and after a power-on reset of any state, and the direction
line is then low where it exists. -/
def Obligations.ReceiveModeIsTheResetValue : Prop :=
  State.reset.dir = 0 ∧
  ∀ (s : State) (rxbuf : Vector Byte 256), ∃ t : State, applyEvent (.powerOn rxbuf) s = .next t ∧ t.dir = 0 ∧
    (t.cfg.hasDir = true → t.dirOut = some 0)

/-- The invariant of R34, R36, R37 and R61 holds at reset. -/
def Obligations.InvariantHoldsAtReset : Prop := State.reset.Inv

/-- R34, R36, R37, R61: from every state that meets the invariant, every step gives a state that meets it. -/
def Obligations.EveryStepKeepsTheInvariant : Prop :=
  ∀ s t : State, s.Inv → step s = .next t → t.Inv

/-- R34, R36, R37, R61, R71, R290: every history of events keeps the invariant, power-on resets and host writes
included. -/
def Obligations.EveryHistoryKeepsTheInvariant : Prop :=
  ∀ (es : List Event) (s t : State), s.Inv → runEvents es s = .next t → t.Inv

/-! ### CRC unit -/

/-- R131: the checksum of a byte sequence starts from 0xFFFF and takes one `crc_step` for each byte in order. -/
def Obligations.Crc16FoldsCrcStepFromTheInitialValue : Prop :=
  crc16 [] = 0xFFFF ∧ ∀ (s : Bytes) (b : Byte), crc16 (s ++ [b]) = crcStep (crc16 s) b

/-- R130: by the spec's reading of the source (decision D5), as numbers, `crc_step` is eight shift rounds on the checksum with the
byte XORed in. -/
def Obligations.CrcStepIsEightShiftRounds : Prop :=
  ∀ (c : U16) (b : Byte), (crcStep c b).toNat = natRound^[8] (c.toNat ^^^ b.toNat)

/-- R133, R134, R135: the streaming operations complete on every state: CRC.INIT and CRC.UPDATE write the accumulator
only, CRC.READ answers it and writes nothing. -/
def Obligations.StreamingChecksumOperationsComplete : Prop :=
  (∀ s : State, exec .crcInit s = .next { s with crc := 0xFFFF, res := s.res ++ [.ok .unit] }) ∧
  (∀ (s : State) (b : Byte),
    exec (.crcUpdate b) s = .next { s with crc := crcStep s.crc b, res := s.res ++ [.ok .unit] }) ∧
  (∀ s : State, exec .crcRead s = .next { s with res := s.res ++ [.ok (.word s.crc)] })

/-- R136, R33: CRC.COMPUTE answers the checksum of its bytes on every state and writes nothing, the accumulator
included. -/
def Obligations.CrcComputeAnswersTheChecksum : Prop :=
  ∀ (s : State) (bytes : Bytes),
    exec (.crcCompute bytes) s = .next { s with res := s.res ++ [.ok (.word (bytes.foldl crcStep 0xFFFF))] }

/-- R132, R137: CRC.VERIFY answers 0 for fewer than two bytes (decision D8), and otherwise whether the last two bytes,
read as a little-endian number, are the checksum of the others; it writes nothing. -/
def Obligations.CrcVerifyComparesTheTrailer : Prop :=
  (∀ (s : State) (f : Bytes), f.length < 2 → exec (.crcVerify f) s = .next { s with res := s.res ++ [.ok (.bit 0)] }) ∧
  (∀ (s : State) (body : Bytes) (lo hi : Byte), exec (.crcVerify (body ++ [lo, hi])) s =
    .next { s with res := s.res ++
      [.ok (.bit (if hi.toNat * 256 + lo.toNat = (crc16 body).toNat then 1 else 0))] })

/-- R64, R138: CRC.APPEND answers its bytes followed by the checksum, low byte first and high byte second, and writes
nothing. -/
def Obligations.CrcAppendSendsTheTrailerLowByteFirst : Prop :=
  ∀ (s : State) (bytes : Bytes), ∃ (lo hi : Byte) (t : State), exec (.crcAppend bytes) s = .next t ∧
    t = { s with res := s.res ++ [.ok (.bytes (bytes ++ [lo, hi]))] } ∧
    t.dout = s.dout ++ bytes ++ [lo, hi] ∧
    lo.toNat = (crc16 bytes).toNat % 256 ∧ hi.toNat = (crc16 bytes).toNat / 256

/-- R139: the streaming sequence of `CRC.OF`, issued on the ports and stepped through, answers what CRC.COMPUTE answers,
for every byte sequence. -/
def Obligations.StreamingEqualsCompute : Prop :=
  ∀ (bytes : Bytes) (s : State), s.cmd = [] → s.din = [] →
    Host.Core.run core (bytes.length + 2) (s.issueAll (Pseudo.crcOf bytes).operations) =
      .next { s with crc := crc16 bytes,
                     res := s.res ++ List.replicate (bytes.length + 1) (.ok .unit) ++ [.ok (.word (crc16 bytes))] }

/-- R140: a body followed by its own trailer has checksum 0, and a frame of two bytes or more verifies exactly when its
whole checksum is 0. -/
def Obligations.ZeroResidueDecidesVerify : Prop :=
  (∀ s : Bytes, crc16 (s ++ le16 (crc16 s)) = 0) ∧
  (∀ f : Bytes, 2 ≤ f.length → (verify f = 1 ↔ crc16 f = 0))

/-- R141: for every body of at most 65533 bytes, what CRC.APPEND answers is an operand CRC.VERIFY can take, and
CRC.VERIFY answers 1 on it. -/
def Obligations.AppendedFrameVerifies : Prop :=
  ∀ (s : State) (bytes : Bytes), bytes.length ≤ 65533 → ∃ (f : Bytes) (t u : State),
    exec (.crcAppend bytes) s = .next t ∧ t.lastResponse = some (.ok (.bytes f)) ∧
    (Instr.crcVerify f).wellFormed = true ∧
    exec (.crcVerify f) t = .next u ∧ u.lastResponse = some (.ok (.bit 1))

/-- R142: flip any one bit of an appended frame outside its trailer, and CRC.VERIFY answers 0. -/
def Obligations.SingleBitErrorOutsideTheTrailerIsDetected : Prop :=
  ∀ (s : State) (bytes : Bytes) (k j : Nat), k < bytes.length → j < 8 → ∃ t : State,
    exec (.crcVerify ((appendCrc bytes).modify k fun b => b ^^^ (1#8 <<< j))) s = .next t ∧
    t.lastResponse = some (.ok (.bit 0))

/-- R143: a table-driven checksum has the same value on every byte sequence. -/
def Obligations.TableDrivenChecksumAgrees : Prop :=
  ∀ s : Bytes, s.foldl tableStep 0xFFFF = crc16 s

/-- R304: in a list of operations whose streams all begin with CRC.INIT, no response depends on what the accumulator
held before. -/
def Obligations.StartedStreamsIgnoreTheOldAccumulator : Prop :=
  ∀ (ops : List Instr) (s : State) (c : U16), streamsStarted false ops = true →
    ∃ t t' : State, execAll ops s = .next t ∧ execAll ops { s with crc := c } = .next t' ∧ t'.res = t.res

/-! ### Codec unit -/

/-- R171: with the index below the declared count and inside the caller buffer, BIT.PACK completes; it replaces exactly
bit `idx mod 8` of byte `idx div 8` by `v`, keeps every other bit of that byte and every other byte, and writes nothing
else. -/
def Obligations.BitPackReplacesOneBit : Prop :=
  ∀ (s : State) (idx : U16) (v : U1) (nbits : U32), Memory.wf s.cbuf = true → idx.toNat < nbits.toNat →
    idx.toNat / 8 < s.cfg.cbufBytes.val → ∃ t : State, exec (.bitPack idx v nbits) s = .next t ∧
      t = { s with cbuf := t.cbuf, res := s.res ++ [.ok .unit] } ∧ Memory.wf t.cbuf = true ∧
      (∀ a : Nat, a ≠ idx.toNat / 8 → t.memRead a = s.memRead a) ∧
      (∀ k : Nat, k < 8 → (t.memRead (idx.toNat / 8)).getLsbD k =
        if k = idx.toNat % 8 then v.getLsbD 0 else (s.memRead (idx.toNat / 8)).getLsbD k)

/-- R172: with the index below the declared count and inside the caller buffer, BIT.READ completes, answers bit
`idx mod 8` of byte `idx div 8`, and writes nothing. -/
def Obligations.BitReadAnswersTheAddressedBit : Prop :=
  ∀ (s : State) (idx : U16) (nbits : U32), idx.toNat < nbits.toNat → idx.toNat / 8 < s.cfg.cbufBytes.val →
    exec (.bitRead idx nbits) s = .next { s with res := s.res ++
      [.ok (.bit (if (s.memRead (idx.toNat / 8)).getLsbD (idx.toNat % 8) then 1 else 0))] }

/-- R65: W16.TO completes on every state and answers the value's high byte first and its low byte second; it writes
nothing. -/
def Obligations.W16ToSendsTheHighByteFirst : Prop :=
  ∀ (s : State) (value : U16), ∃ (hi lo : Byte) (t : State), exec (.w16To value) s = .next t ∧
    t = { s with res := s.res ++ [.ok (.bytes [hi, lo])] } ∧ t.dout = s.dout ++ [hi, lo] ∧
    hi.toNat = value.toNat / 256 ∧ lo.toNat = value.toNat % 256

/-- R174: W16.FROM completes on every state and answers 256 times the high byte plus the low byte; it writes nothing. -/
def Obligations.W16FromJoinsTheTwoBytes : Prop :=
  ∀ (s : State) (hi lo : Byte),
    exec (.w16From hi lo) s = .next { s with res := s.res ++ [.ok (.word (BitVec.ofNat 16 (hi.toNat * 256 + lo.toNat)))] }

/-- R175 (a), (b): W16.FROM undoes W16.TO, and W16.TO undoes W16.FROM. -/
def Obligations.WireConversionsUndoEachOther : Prop :=
  (∀ (s : State) (v : U16), ∃ (hi lo : Byte) (t u : State), exec (.w16To v) s = .next t ∧
    t.lastResponse = some (.ok (.bytes [hi, lo])) ∧ exec (.w16From hi lo) t = .next u ∧
    u.lastResponse = some (.ok (.word v))) ∧
  (∀ (s : State) (hi lo : Byte), ∃ (v : U16) (t u : State), exec (.w16From hi lo) s = .next t ∧
    t.lastResponse = some (.ok (.word v)) ∧ exec (.w16To v) t = .next u ∧
    u.lastResponse = some (.ok (.bytes [hi, lo])))

/-- R175 (c), R76: after a BIT.PACK, and any operations after it that pack no bit of the same byte, BIT.READ answers the
packed value. -/
def Obligations.BitReadSeesTheLastPack : Prop :=
  ∀ (s t u : State) (idx : U16) (v : U1) (nbits : U32) (ops : List Instr), Memory.wf s.cbuf = true →
    idx.toNat < nbits.toNat → idx.toNat / 8 < s.cfg.cbufBytes.val →
    exec (.bitPack idx v nbits) s = .next t → (∀ i ∈ ops, packsByte (idx.toNat / 8) i = false) →
    execAll ops t = .next u →
    exec (.bitRead idx nbits) u = .next { u with res := u.res ++ [.ok (.bit v)] }

/-- R175 (e): two BIT.PACKs of different indices commute. -/
def Obligations.PacksOfDifferentBitsCommute : Prop :=
  ∀ (s : State) (idx idx' : U16) (v v' : U1) (nbits nbits' : U32), Memory.wf s.cbuf = true → idx ≠ idx' →
    idx.toNat < nbits.toNat → idx.toNat / 8 < s.cfg.cbufBytes.val →
    idx'.toNat < nbits'.toNat → idx'.toNat / 8 < s.cfg.cbufBytes.val →
    execAll [.bitPack idx v nbits, .bitPack idx' v' nbits'] s =
      execAll [.bitPack idx' v' nbits', .bitPack idx v nbits] s

/-- R293 step 7: with a caller buffer of at least `ceil(nbits / 8)` bytes, an index below the declared count never
faults. -/
def Obligations.SizedBufferNeverFaultsInsideTheCount : Prop :=
  ∀ (s : State) (idx : U16) (v : U1) (nbits : U32), bufferSized s.cfg nbits = true → idx.toNat < nbits.toNat →
    (∃ t : State, exec (.bitPack idx v nbits) s = .next t ∧ t.lastResponse = some (.ok .unit)) ∧
    (∃ (t : State) (b : U1), exec (.bitRead idx nbits) s = .next t ∧ t.lastResponse = some (.ok (.bit b)))

/-- R72: issuing again a read-only operation, CRC.INIT, a BIT.PACK or a direction operation changes nothing more. -/
def Obligations.IdempotentOperationsRepeatWithoutEffect : Prop :=
  ∀ (i : Instr) (s t u : State), Memory.wf s.cbuf = true →
    (readsOnly i = true ∨ i = .crcInit ∨ i = .dirTx ∨ i = .dirRx ∨ ∃ idx v nbits, i = .bitPack idx v nbits) →
    exec i s = .next t → exec i t = .next u →
    ∃ r, t.res = s.res ++ [r] ∧ u = { t with res := t.res ++ [r] }

/-- R71, R76: a host write between two operations is seen by every BIT.READ of that byte; a host write outside the
caller buffer stops the model by name (log 11, DESIGN CHOICE). -/
def Obligations.HostWriteIsSeenByBitRead : Prop :=
  ∀ (s : State) (a : Nat) (v : Byte),
    (Memory.wf s.cbuf = true → a < s.cfg.cbufBytes.val → ∃ t : State, applyEvent (.writeCbuf a v) s = .next t ∧
      (∀ x : Nat, x ≠ a → t.memRead x = s.memRead x) ∧
      ∀ (idx : U16) (nbits : U32), idx.toNat / 8 = a → idx.toNat < nbits.toNat →
        exec (.bitRead idx nbits) t = .next { t with res := t.res ++
          [.ok (.bit (if v.getLsbD (idx.toNat % 8) then 1 else 0))] }) ∧
    (s.cfg.cbufBytes.val ≤ a → applyEvent (.writeCbuf a v) s = .fault (.hostCbufAddress a))

/-! ### Assembler unit -/

/-- R202: RX.BYTE completes on every state: with room it stores the byte at `rxbuf[fill]` and counts it, without room it
drops the byte and sets `ovf`; it writes the timestamp in both cases and nothing else. (That `fill` above 256, which no
run reaches, counts as full is the model's choice, log 13.) -/
def Obligations.RxByteStoresOrDrops : Prop :=
  ∀ (s : State) (b : Byte) (ts : U32),
    (∀ h : s.fill.toNat < 256, exec (.rxByte b ts) s = .next { s with
      rxbuf := s.rxbuf.set s.fill.toNat b, fill := s.fill + 1, last_ts := ts, res := s.res ++ [.ok .unit] }) ∧
    (256 ≤ s.fill.toNat → exec (.rxByte b ts) s = .next { s with
      ovf := 1, last_ts := ts, res := s.res ++ [.ok .unit] })

/-- R203, R200: RX.POLL completes on every state: with a byte held and the silence, modulo 2^32, at T_IFD_MS or more it
delivers the bytes held with the old `ovf` and clears `fill` and `ovf`; otherwise it answers not ready and writes
nothing. (That `fill` above 256, which no run reaches, delivers all 256 entries is the model's choice, log 13.) -/
def Obligations.RxPollDeliversAtTheSilence : Prop :=
  ∀ (s : State) (now : U32),
    (0 < s.fill.toNat → s.cfg.tIfdMs.toNat ≤ (now.toNat + 2 ^ 32 - s.last_ts.toNat) % 2 ^ 32 →
      exec (.rxPoll now) s = .next { s with
        fill := 0, ovf := 0, res := s.res ++ [.ok (.poll ⟨1, s.ovf, s.rxbuf.toList.take s.fill.toNat⟩)] }) ∧
    (s.fill.toNat = 0 ∨ (now.toNat + 2 ^ 32 - s.last_ts.toNat) % 2 ^ 32 < s.cfg.tIfdMs.toNat →
      exec (.rxPoll now) s = .next { s with res := s.res ++ [.ok (.poll ⟨0, s.ovf, []⟩)] })

/-- R204: RX.STATUS completes on every state, answers `fill`, `ovf` and `last_ts`, and writes nothing. -/
def Obligations.RxStatusAnswersTheAssemblerState : Prop :=
  ∀ s : State, exec .rxStatus s =
    .next { s with res := s.res ++ [.ok (.status { fill := s.fill, ovf := s.ovf, last_ts := s.last_ts })] }

/-- R35: every RX.BYTE writes `last_ts`, whether or not the byte is stored; RX.POLL compares it and RX.STATUS answers
it; RX.POLL and every other operation leave it as it is. -/
def Obligations.OnlyRxByteWritesTheTimestamp : Prop :=
  ∀ s : State,
    (∀ (b : Byte) (ts : U32), ∃ t : State, exec (.rxByte b ts) s = .next t ∧ t.last_ts = ts) ∧
    (∀ now : U32, ∃ t : State, exec (.rxPoll now) s = .next t ∧ t.last_ts = s.last_ts ∧
      ((∃ o f, t.lastResponse = some (.ok (.poll ⟨1, o, f⟩))) ↔
        0 < s.fill.toNat ∧ s.cfg.tIfdMs.toNat ≤ (now - s.last_ts).toNat)) ∧
    (∃ (t : State) (f : U9) (o : U1), exec .rxStatus s = .next t ∧
      t.lastResponse = some (.ok (.status ⟨f, o, s.last_ts⟩))) ∧
    (∀ (i : Instr) (t : State), (∀ b ts, i ≠ .rxByte b ts) → exec i s = .next t → t.last_ts = s.last_ts)

/-- R63: RX.BYTE writes one entry of RXBUF, at index `fill`; RX.POLL reads entries 0..fill-1 and writes none; no other
operation reads or writes RXBUF. (That with `fill` above 256, which no run reaches, RX.BYTE writes none and RX.POLL reads
all 256 is the model's choice, log 13.) -/
def Obligations.OnlyRxByteAndRxPollTouchTheBuffer : Prop :=
  (∀ (s : State) (b : Byte) (ts : U32), ∃ t : State, exec (.rxByte b ts) s = .next t ∧
    (∀ h : s.fill.toNat < 256, t.rxbuf[s.fill.toNat] = b) ∧
    ∀ (k : Nat) (h : k < 256), k ≠ s.fill.toNat → t.rxbuf[k] = s.rxbuf[k]) ∧
  (∀ (s : State) (now : U32), ∃ t : State, exec (.rxPoll now) s = .next t ∧ t.rxbuf = s.rxbuf ∧
    ∀ o f, t.lastResponse = some (.ok (.poll ⟨1, o, f⟩)) →
      f.length = min s.fill.toNat 256 ∧ ∀ (k : Nat) (h : k < 256), k < s.fill.toNat → f[k]? = some s.rxbuf[k]) ∧
  (∀ (i : Instr) (s : State) (buf : Vector Byte 256), (∀ b ts, i ≠ .rxByte b ts) → (∀ now, i ≠ .rxPoll now) →
    ∃ t : State, exec i s = .next t ∧ t.rxbuf = s.rxbuf ∧
      exec i { s with rxbuf := buf } = .next { t with rxbuf := buf })

/-- R38, R41 (b): two states that differ only in buffer entries at or above `fill` take the same steps, give the same
responses, and again differ at most there. -/
def Obligations.StaleBufferEntriesAreUnobservable : Prop :=
  ∀ (n : Nat) (s t s' t' : State), SameButStale s t → Host.Core.run core n s = .next s' →
    Host.Core.run core n t = .next t' → SameButStale s' t' ∧ t'.res = s'.res

/-- R210: from an empty assembler, any operations that hand over the bytes of a frame of 1 to 256 bytes, among them any
polls that see a silence below T_IFD_MS since the last byte, deliver nothing; a poll T_IFD_MS or more after the last
byte then delivers exactly one frame, those bytes, however they came in bursts. -/
def Obligations.FramingDeliversExactlyTheReceivedBytes : Prop :=
  ∀ (s : State) (ops : List Instr) (now ts : U32), s.fill = 0 → s.ovf = 0 →
    (receivedBytes ops).length ≤ 256 → silencesBelow s.cfg.tIfdMs none ops = true →
    lastArrival none ops = some ts → s.cfg.tIfdMs.toNat ≤ (now - ts).toNat →
    ∃ (t : State) (rs : List Response), execAll (ops ++ [.rxPoll now]) s = .next t ∧ t.fill = 0 ∧ t.ovf = 0 ∧
      t.res = s.res ++ rs ++ [.ok (.poll ⟨1, 0, receivedBytes ops⟩)] ∧ ∀ r ∈ rs, deliversNothing r = true

/-- R207, R306: when more than 256 bytes arrive so, the one delivered frame is the first 256 bytes with `ovf` 1, and it
verifies exactly when its last two bytes are the checksum of its first 254. -/
def Obligations.OverflowDeliversTheFirst256Bytes : Prop :=
  ∀ (s : State) (ops : List Instr) (now ts : U32), s.fill = 0 → s.ovf = 0 →
    256 < (receivedBytes ops).length → silencesBelow s.cfg.tIfdMs none ops = true →
    lastArrival none ops = some ts → s.cfg.tIfdMs.toNat ≤ (now - ts).toNat →
    ∃ (t : State) (rs : List Response), execAll (ops ++ [.rxPoll now]) s = .next t ∧ t.fill = 0 ∧ t.ovf = 0 ∧
      t.res = s.res ++ rs ++ [.ok (.poll ⟨1, 1, (receivedBytes ops).take 256⟩)] ∧
      (∀ r ∈ rs, deliversNothing r = true) ∧
      (verify ((receivedBytes ops).take 256) = 1 ↔
        (crc16 ((receivedBytes ops).take 254)).toNat =
          ((receivedBytes ops).getD 255 0).toNat * 256 + ((receivedBytes ops).getD 254 0).toNat)

/-- R208, R209, R211: a byte that comes after the silence has passed but before a poll joins the same frame; a byte that
comes after a poll has delivered starts the next one. -/
def Obligations.UnpolledSilenceMergesAndPolledSilenceSplits : Prop :=
  ∀ (s : State) (now ts now' : U32) (b : Byte), s.complete now = true → s.cfg.tIfdMs.toNat ≤ (now' - ts).toNat →
    (s.fill.toNat < 256 → ∃ u : State, execAll [.rxByte b ts, .rxPoll now'] s = .next u ∧
      u.res = s.res ++ [.ok .unit, .ok (.poll ⟨1, s.ovf, s.frame ++ [b]⟩)]) ∧
    (∃ u : State, execAll [.rxPoll now, .rxByte b ts, .rxPoll now'] s = .next u ∧
      u.res = s.res ++ [.ok (.poll ⟨1, s.ovf, s.frame⟩), .ok .unit, .ok (.poll ⟨1, 0, [b]⟩)])

/-- R200, R203, R301, R305: with a byte held, a poll whose true time is not before the last byte's and less than a wrap
after it delivers exactly when the true silence has reached T_IFD_MS, across a wrap of the clock too; a poll whose `now`
lies d ms before the last byte's timestamp delivers at once unless T_IFD_MS exceeds 2^32 - d. -/
def Obligations.PollMeasuresTheSilenceModuloTheClockWrap : Prop :=
  ∀ (s : State) (now : U32), 0 < s.fill.toNat →
    (∀ lastMs nowMs : Nat, PollNotEarly s now lastMs nowMs →
      PollDeliversIff s now (s.cfg.tIfdMs.toNat ≤ nowMs - lastMs)) ∧
    (∀ d : Nat, 0 < d → d < 2 ^ 32 → s.last_ts = now + BitVec.ofNat 32 d →
      PollDeliversIff s now (s.cfg.tIfdMs.toNat ≤ 2 ^ 32 - d))

/-! ### Direction unit -/

/-- R240, R241, R46: the direction operations complete on every state: where the direction line exists DIR.TX drives it
high and DIR.RX low, and DIR_OUT is the level; where it does not, DIR.TX leaves `dir` as it is and DIR.RX clears it. They
write nothing else. (A `dir` of 1 without the line, which no run reaches, is the model's choice, log 13.) -/
def Obligations.DirectionOperationsDriveTheLine : Prop :=
  ∀ s : State,
    (s.cfg.hasDir = true → ∃ t : State, exec .dirTx s = .next t ∧
      t = { s with dir := 1, res := s.res ++ [.ok .unit] } ∧ t.dirOut = some 1) ∧
    (s.cfg.hasDir = false → exec .dirTx s = .next { s with res := s.res ++ [.ok .unit] }) ∧
    (∃ t : State, exec .dirRx s = .next t ∧ t = { s with dir := 0, res := s.res ++ [.ok .unit] } ∧
      (s.cfg.hasDir = true → t.dirOut = some 0))

/-- R244, R37: without the direction line no operations ever take `dir` from 0, and DIR_OUT does not exist. -/
def Obligations.WithoutTheLineDirectionStaysReceive : Prop :=
  ∀ (ops : List Instr) (s t : State), s.cfg.hasDir = false → s.dir = 0 → execAll ops s = .next t →
    t.dir = 0 ∧ t.dirOut = none

/-! ### Frames: what operations leave unchanged -/

/-- R72, R175 (f): a read-only operation changes no register, no buffer entry, no byte of the caller buffer and no
stream; it gives one response. -/
def Obligations.ReadOnlyOperationsWriteNothing : Prop :=
  ∀ (i : Instr) (s t : State), readsOnly i = true → exec i s = .next t →
    t = { s with res := t.res } ∧ (∃ r, t.res = s.res ++ [r]) ∧ ∀ a : Nat, t.memRead a = s.memRead a

/-- R33, R37: CRC.INIT and CRC.UPDATE write the accumulator only, DIR.TX and DIR.RX the direction only; every byte of the
caller buffer reads as before. -/
def Obligations.RegisterOperationsWriteTheirRegisterOnly : Prop :=
  ∀ (i : Instr) (s t : State), exec i s = .next t →
    ((i = .crcInit ∨ ∃ b, i = .crcUpdate b) →
      t = { s with crc := t.crc, res := s.res ++ [.ok .unit] } ∧ ∀ a : Nat, t.memRead a = s.memRead a) ∧
    ((i = .dirTx ∨ i = .dirRx) →
      t = { s with dir := t.dir, res := s.res ++ [.ok .unit] } ∧ ∀ a : Nat, t.memRead a = s.memRead a)

/-- R171, R175 (d): a BIT.PACK that passes its bounds check stores to the byte the check names and leaves every other
byte, every register and every buffer entry as it was. -/
def Obligations.BitPackStoresToItsByteOnly : Prop :=
  ∀ (s t : State) (idx : U16) (v : U1) (nbits : U32) (a p : Nat), bitAddr s.cfg idx nbits = some (a, p) →
    exec (.bitPack idx v nbits) s = .next t →
    (∀ x : Nat, x ≠ a → t.memRead x = s.memRead x) ∧
    t.crc = s.crc ∧ t.fill = s.fill ∧ t.last_ts = s.last_ts ∧ t.ovf = s.ovf ∧ t.dir = s.dir ∧ t.rxbuf = s.rxbuf ∧
    t.cfg = s.cfg ∧ t.cmd = s.cmd ∧ t.din = s.din

/-- R202, R203, R204, R34 to R36: RX.BYTE leaves every buffer entry but `rxbuf[fill]`, and sets `ovf` only when it drops
its byte, which leaves `fill`; RX.POLL leaves the buffer and the timestamp and clears `fill` and `ovf` only when it
delivers; RX.STATUS leaves all of these; none touches the accumulator, the direction or any byte of the caller buffer. -/
def Obligations.AssemblerOperationsLeaveTheRestUnchanged : Prop :=
  ∀ (i : Instr) (s t : State), exec i s = .next t → unitOf i = .assembler →
    t.crc = s.crc ∧ t.dir = s.dir ∧ t.cfg = s.cfg ∧ t.cmd = s.cmd ∧ t.din = s.din ∧
    (∀ a : Nat, t.memRead a = s.memRead a) ∧
    (∀ (k : Nat) (h : k < 256), t.rxbuf[k] ≠ s.rxbuf[k] → k = s.fill.toNat ∧ ∃ b ts, i = .rxByte b ts) ∧
    ((∀ b ts, i ≠ .rxByte b ts) → t.last_ts = s.last_ts) ∧
    (t.fill ≠ s.fill → (t.fill = s.fill + 1 ∧ s.fill.toNat < 256 ∧ ∃ b ts, i = .rxByte b ts) ∨
      (t.fill = 0 ∧ ∃ now, i = .rxPoll now ∧ s.complete now = true)) ∧
    (t.ovf ≠ s.ovf → (t.ovf = 1 ∧ 256 ≤ s.fill.toNat ∧ ∃ b ts, i = .rxByte b ts) ∨
      (t.ovf = 0 ∧ ∃ now, i = .rxPoll now ∧ s.complete now = true))

/-- R1, R33 to R38, R61, R63, R70, R245: the four units do not interfere: after any list of operations each unit's state is what the
list's operations of that unit alone leave; the direction in particular does not gate the assembler. -/
def Obligations.UnitsDoNotInterfere : Prop :=
  ∀ (ops : List Instr) (s t : State), execAll ops s = .next t →
    (∃ u : State, execAll (onlyUnit .crc ops) s = .next u ∧ u.crc = t.crc) ∧
    (∃ u : State, execAll (onlyUnit .codec ops) s = .next u ∧ u.cbuf = t.cbuf) ∧
    (∃ u : State, execAll (onlyUnit .assembler ops) s = .next u ∧ u.fill = t.fill ∧ u.last_ts = t.last_ts ∧
      u.ovf = t.ovf ∧ u.rxbuf = t.rxbuf) ∧
    (∃ u : State, execAll (onlyUnit .direction ops) s = .next u ∧ u.dir = t.dir)

/-! ### Wire format -/

/-- R103: a frame is valid exactly when it is a body of two bytes or more followed by the body's checksum, low byte
first; and the assembler delivers candidates that are not valid. -/
def Obligations.ValidFrameIsABodyWithItsTrailer : Prop :=
  (∀ f : Bytes, validFrame f = true ↔ ∃ (body : Bytes) (lo hi : Byte), f = body ++ [lo, hi] ∧ 4 ≤ f.length ∧
    hi.toNat * 256 + lo.toNat = (crc16 body).toNat) ∧
  (∃ (s t : State) (now : U32) (f : Bytes), exec (.rxPoll now) s = .next t ∧
    t.lastResponse = some (.ok (.poll ⟨1, 0, f⟩)) ∧ validFrame f = false)

/-- R105, R106, R138: CRC.APPEND of `unit_addr | (function_code | 0x80) | exception_code` answers the exception frame,
and that frame is valid. -/
def Obligations.ExceptionFramesAreBuiltByAppend : Prop :=
  ∀ (s : State) (unit fc : Byte) (code : ExceptionCode), ∃ t : State,
    exec (.crcAppend [unit, fc ||| 0x80, exceptionByte code]) s = .next t ∧
    t.lastResponse = some (.ok (.bytes (exceptionFrame unit fc code))) ∧
    validFrame (exceptionFrame unit fc code) = true ∧
    (exceptionFrame unit fc code).take 3 = [unit, fc ||| 0x80, exceptionByte code]
end

