-- ==== Sys2Proof/Laws/Bits.lean ====
section
/-! SUPPORT. Bit fields and byte orders: the fields of word 0 (30_encoding.md R90), bits of a packed byte (41_codec.md
R171, R172), and the two 16-bit orders (20_memory.md R64, R65). -/

namespace Sys2Proof

/-! ### Word 0 -/

@[simp] theorem opcField_mkWord0 (o a : Byte) (b : U16) : opcField (mkWord0 o a b) = o := by
  ext i hi
  simp [opcField, mkWord0]
  grind

@[simp] theorem a8Field_mkWord0 (o a : Byte) (b : U16) : a8Field (mkWord0 o a b) = a := by
  ext i hi
  simp [a8Field, mkWord0]
  grind

@[simp] theorem b16Field_mkWord0 (o a : Byte) (b : U16) : b16Field (mkWord0 o a b) = b := by
  ext i hi
  simp [b16Field, mkWord0]
  grind

/-- A word is its three fields. -/
@[simp] theorem mkWord0_fields (w : U32) : mkWord0 (opcField w) (a8Field w) (b16Field w) = w := by
  ext i hi
  simp [opcField, a8Field, b16Field, mkWord0]
  grind

/-! ### Reserved fields and narrow operands (R95, R97) -/

theorem and_allOnes8 {a : Byte} : a &&& 0xFF#8 = a := by
  ext i hi
  have h : ∀ j, j < 8 → (0xFF#8).getLsbD j = true := by decide
  simp [← BitVec.getLsbD_eq_getElem, h i hi]

theorem and_allOnes16 {b : U16} : b &&& 0xFFFF#16 = b := by
  ext i hi
  have h : ∀ j, j < 16 → (0xFFFF#16).getLsbD j = true := by decide
  simp [← BitVec.getLsbD_eq_getElem, h i hi]

/-- A bit operand survives its 8-bit field. -/
@[simp] theorem bit_of_setWidth (v : U1) : (v.setWidth 8 : Byte).extractLsb' 0 1 = v := by
  ext i hi
  simp; grind

/-- With bits 7:1 of A8 clear the field is its bit 0. -/
theorem setWidth_of_bit {a : Byte} (h : a &&& 0xFE#8 = 0) : (a.extractLsb' 0 1 : U1).setWidth 8 = a := by
  revert a; decide

/-- A byte operand survives its 16-bit field. -/
@[simp] theorem byte_of_setWidth (lo : Byte) : (lo.setWidth 16 : U16).extractLsb' 0 8 = lo := by
  ext i hi
  simp; grind

/-- With bits 15:8 of B16 clear the field is its low byte. -/
theorem setWidth_of_byte {b : U16} (h : b &&& 0xFF00#16 = 0) : (b.extractLsb' 0 8 : Byte).setWidth 16 = b := by
  ext i hi
  have h1 : ∀ j, 8 ≤ j → j < 16 → (0xFF00#16).getLsbD j = true := by decide
  have h2 : (b &&& 0xFF00#16).getLsbD i = false := by simp [h]
  rw [BitVec.getLsbD_and] at h2
  by_cases hlt : i < 8
  · simp [hlt, BitVec.getLsbD_eq_getElem hi]
  · rw [h1 i (by omega) hi] at h2
    simp_all [← BitVec.getLsbD_eq_getElem]

namespace Machine

/-! ### Packed bits (41_codec.md R171, R172) -/

/-- BIT.PACK's byte holds `v` at position `p` and the old bits elsewhere (R171, R175 (d)). -/
theorem packBit_getLsbD (old : Byte) (v : U1) {p k : Nat} (hk : k < 8) :
    (packBit old p v).getLsbD k = if k = p then v.getLsbD 0 else old.getLsbD k := by
  simp [packBit]; grind

/-- BIT.READ's answer is bit `p` of the byte (R172). -/
theorem readBit_eq (byte : Byte) (p : Nat) : readBit byte p = BitVec.ofBool (byte.getLsbD p) := by
  ext i hi
  simp [readBit]; grind

/-! ### 16-bit orders (R64, R65) -/

/-- Two bytes side by side as a number. -/
theorem bytes_toNat (hi lo : Byte) : ((hi.setWidth 16 <<< 8) ||| lo.setWidth 16 : U16).toNat = hi.toNat * 256 + lo.toNat := by
  have h1 := hi.isLt
  have h2 := lo.isLt
  have h3 := Nat.shiftLeft_add_eq_or_of_lt (i := 8) h2 hi.toNat
  rw [Nat.shiftLeft_eq] at h3
  simp only [BitVec.toNat_or, BitVec.toNat_shiftLeft, BitVec.toNat_setWidth]
  rw [Nat.mod_eq_of_lt (a := hi.toNat) (by omega), Nat.mod_eq_of_lt (a := lo.toNat) (by omega), Nat.shiftLeft_eq,
    Nat.mod_eq_of_lt (by omega), ← h3]

theorem fromLe16_toNat (lo hi : Byte) : (fromLe16 lo hi).toNat = hi.toNat * 256 + lo.toNat := bytes_toNat hi lo

theorem fromWire16_toNat (hi lo : Byte) : (fromWire16 hi lo).toNat = hi.toNat * 256 + lo.toNat := bytes_toNat hi lo

/-- The high byte of a 16-bit value, and its low byte, as numbers. -/
theorem highByte_toNat (c : U16) : (c.extractLsb' 8 8 : Byte).toNat = c.toNat / 256 := by
  have := c.isLt
  simp [BitVec.extractLsb'_toNat, Nat.shiftRight_eq_div_pow]; omega

theorem lowByte_toNat (c : U16) : (c.extractLsb' 0 8 : Byte).toNat = c.toNat % 256 := by
  simp [BitVec.extractLsb'_toNat]

/-- The trailer read back is the checksum (R64, R132). -/
@[simp] theorem fromLe16_le16 (c : U16) : fromLe16 (c.extractLsb' 0 8) (c.extractLsb' 8 8) = c := by
  apply BitVec.eq_of_toNat_eq
  rw [fromLe16_toNat, highByte_toNat, lowByte_toNat]; omega

/-- The wire pair read back is the value. -/
@[simp] theorem fromWire16_bytes (v : U16) : fromWire16 (v.extractLsb' 8 8) (v.extractLsb' 0 8) = v := fromLe16_le16 v

/-- Two bytes made a value and split again are the two bytes. -/
@[simp] theorem highByte_fromWire16 (hi lo : Byte) : ((fromWire16 hi lo).extractLsb' 8 8 : Byte) = hi := by
  apply BitVec.eq_of_toNat_eq
  have := lo.isLt
  rw [highByte_toNat, fromWire16_toNat]; omega

@[simp] theorem lowByte_fromWire16 (hi lo : Byte) : ((fromWire16 hi lo).extractLsb' 0 8 : Byte) = lo := by
  apply BitVec.eq_of_toNat_eq
  have := lo.isLt
  rw [lowByte_toNat, fromWire16_toNat]; omega

end Machine

end Sys2Proof
end

