-- ==== Sys2Proof/Laws/Checksum.lean ====
section
/-! SUPPORT. Laws of the checksum functions (40_crc.md R130 to R132): rounds are linear and injective, a checksum is
computed piece by piece, and what feeding a trailer does. -/

namespace Sys2Proof.Machine

/-! ### Rounds -/

theorem crcRound_zero : crcRound 0 = 0 := by decide

/-- A round is linear over XOR. -/
theorem crcRound_xor (c d : U16) : crcRound (c ^^^ d) = crcRound c ^^^ crcRound d := by
  unfold crcRound
  rw [BitVec.getLsbD_xor]
  have hcancel : ∀ x y p : U16, x ^^^ y = x ^^^ p ^^^ (y ^^^ p) := by
    intro x y p; ext i hi; simp; grind
  cases c.getLsbD 0 <;> cases d.getLsbD 0 <;> simp [BitVec.ushiftRight_xor_distrib]
  all_goals first | exact hcancel _ _ _ | (ext i hi; simp; try grind)

/-- A round shifts the polynomial's top bit in exactly when it shifts a 1 out, so only 0 goes to 0. -/
theorem crcRound_eq_zero {c : U16} (h : crcRound c = 0) : c = 0 := by
  have htop : (crcRound c).getLsbD 15 = c.getLsbD 0 := by
    unfold crcRound
    have hp : crcPolyRev.getLsbD 15 = true := by decide
    cases hc : c.getLsbD 0 <;> simp [hp]
  rw [h] at htop
  have h0 : c.getLsbD 0 = false := by simpa using htop.symm
  unfold crcRound at h
  simp only [h0, Bool.false_eq_true, if_false] at h
  ext i hi
  have hi' : (c >>> 1).getLsbD (i - 1) = false := by simp [h]
  by_cases hz : i = 0
  · subst hz
    simpa [BitVec.getLsbD_eq_getElem] using h0
  · rw [BitVec.getLsbD_ushiftRight, show 1 + (i - 1) = i by omega] at hi'
    simpa [← BitVec.getLsbD_eq_getElem] using hi'

theorem crcRounds_xor (k : Nat) (c d : U16) : crcRounds k (c ^^^ d) = crcRounds k c ^^^ crcRounds k d := by
  induction k generalizing c d with
  | zero => rfl
  | succ k ih => simp [crcRounds, crcRound_xor, ih]

theorem crcRounds_eq_zero {k : Nat} {c : U16} (h : crcRounds k c = 0) : c = 0 := by
  induction k generalizing c with
  | zero => exact h
  | succ k ih => exact crcRound_eq_zero (ih h)

theorem crcRounds_injective {k : Nat} {c d : U16} (h : crcRounds k c = crcRounds k d) : c = d := by
  have : crcRounds k (c ^^^ d) = 0 := by rw [crcRounds_xor, h, BitVec.xor_self]; rfl
  simpa using crcRounds_eq_zero this

/-! ### Steps -/

/-- For a fixed byte `crc_step` is injective in the checksum (R140). -/
theorem crcStep_injective {c d : U16} {b : Byte} (h : crcStep c b = crcStep d b) : c = d := by
  simpa using crcRounds_injective h

/-- For a fixed checksum `crc_step` is injective in the byte. -/
theorem crcStep_byte_injective {c : U16} {b b' : Byte} (h : crcStep c b = crcStep c b') : b = b' := by
  have h1 : b.setWidth 16 = (b'.setWidth 16 : U16) := by simpa using crcRounds_injective h
  have h2 := congrArg (fun x : U16 => (x.extractLsb' 0 8 : Byte)) h1
  simpa using h2

/-- `crc_step` is linear over XOR in both arguments. -/
theorem crcStep_xor (c d : U16) (b b' : Byte) : crcStep (c ^^^ d) (b ^^^ b') = crcStep c b ^^^ crcStep d b' := by
  unfold crcStep
  rw [← crcRounds_xor]
  congr 1
  ext i hi
  simp; grind

/-! ### Sequences -/

@[simp] theorem crcFrom_nil (c : U16) : crcFrom c [] = c := rfl

@[simp] theorem crcFrom_cons (c : U16) (b : Byte) (s : Bytes) : crcFrom c (b :: s) = crcFrom (crcStep c b) s := rfl

theorem crcFrom_append (c : U16) (s t : Bytes) : crcFrom c (s ++ t) = crcFrom (crcFrom c s) t := by
  simp [crcFrom, List.foldl_append]

theorem crc16_append (s t : Bytes) : crc16 (s ++ t) = crcFrom (crc16 s) t := crcFrom_append _ s t

/-- Over the same bytes different checksums stay different. -/
theorem crcFrom_injective {c d : U16} {s : Bytes} (h : crcFrom c s = crcFrom d s) : c = d := by
  induction s generalizing c d with
  | nil => exact h
  | cons b s ih => exact crcStep_injective (ih h)

/-! ### Trailers -/

/-- While the bits shifted out are 0, rounds are plain shifts. -/
theorem crcRounds_of_clear {k : Nat} {c : U16} (h : ∀ j < k, c.getLsbD j = false) : crcRounds k c = c >>> k := by
  induction k generalizing c with
  | zero => simp [crcRounds]
  | succ k ih =>
    have h0 : crcRound c = c >>> 1 := if_neg (by rw [h 0 (by omega)]; exact Bool.false_ne_true)
    rw [crcRounds, h0, ih, ← BitVec.shiftRight_add, Nat.add_comm 1 k]
    intro j hj
    rw [BitVec.getLsbD_ushiftRight]
    exact h (1 + j) (by omega)

/-- Feeding a checksum its own low byte shifts the high byte down (R140). -/
theorem crcStep_lowByte (c : U16) : crcStep c (c.extractLsb' 0 8) = c >>> 8 := by
  unfold crcStep
  rw [crcRounds_of_clear]
  · ext i hi
    simp
  · intro j hj
    simp; grind

/-- Feeding a checksum of one byte that byte clears it (R140). -/
theorem crcStep_self (b : Byte) : crcStep (b.setWidth 16) b = 0 := by
  unfold crcStep
  rw [BitVec.xor_self]
  decide

theorem verify_append_two (s : Bytes) (lo hi : Byte) :
    verify (s ++ [lo, hi]) = if crc16 s = fromLe16 lo hi then 1 else 0 := by
  have h1 : ¬ (s ++ [lo, hi]).length < 2 := by simp
  have h2 : (s ++ [lo, hi]).length - 2 = s.length := by simp
  have h3 : (s ++ [lo, hi]).length - 1 = s.length + 1 := by simp
  unfold verify
  rw [if_neg h1, h2, h3]
  simp

theorem verify_of_short {f : Bytes} (h : f.length < 2) : verify f = 0 := by simp [verify, h]

end Sys2Proof.Machine
end

