-- ==== Sys2Proof/Laws/Decode.lean ====
section
/-! SUPPORT. The opcode map and the parts of the decoder (30_encoding.md R94 to R98): one lemma for each, which a proof
about decoding cites. -/

namespace Sys2Proof

/-- A row's code names the row. -/
@[simp] theorem Opcode.ofCode_code (o : Opcode) : Opcode.ofCode o.row.code = some o := by cases o <;> decide

/-- A code names a row exactly when it is the row's. -/
theorem Opcode.ofCode_eq_some {c : Byte} {o : Opcode} : Opcode.ofCode c = some o ↔ o.row.code = c := by
  constructor
  · intro h
    simpa using List.find?_some h
  · rintro rfl
    exact Opcode.ofCode_code o

/-- A code names no row exactly when no row has it. -/
theorem Opcode.ofCode_eq_none {c : Byte} : Opcode.ofCode c = none ↔ ∀ o : Opcode, o.row.code ≠ c := by
  constructor
  · rintro h o rfl
    simp at h
  · intro h
    cases hc : Opcode.ofCode c with
    | none => rfl
    | some o => exact absurd (Opcode.ofCode_eq_some.1 hc) (h o)

/-- Operands of format F0: none. -/
@[simp] theorem takeOperands_f0 (n : Nat) (cmd : List U32) (din : Bytes) :
    takeOperands .f0 n cmd din = some ⟨0, [], cmd, din⟩ := rfl

/-- Operands of format F1: the operand word. -/
@[simp] theorem takeOperands_f1 (n : Nat) (x : U32) (cmd : List U32) (din : Bytes) :
    takeOperands .f1 n (x :: cmd) din = some ⟨x, [], cmd, din⟩ := rfl

/-- Operands of format F2: the data bytes. -/
@[simp] theorem takeOperands_f2 (data : Bytes) (cmd : List U32) (din : Bytes) :
    takeOperands .f2 data.length cmd (data ++ din) = some ⟨0, data, cmd, din⟩ := by
  simp [takeOperands]

/-- What `takeOperands` consumes, and that the format alone decides how much (R94, R99). -/
theorem takeOperands_eq_some {f : Format} {n : Nat} {cmd : List U32} {din : Bytes} {r : Operands}
    (h : takeOperands f n cmd din = some r) :
    match f with
    | .f0 => r = ⟨0, [], cmd, din⟩
    | .f1 => cmd = r.x32 :: r.cmd ∧ r.data = [] ∧ r.din = din
    | .f2 => n ≤ din.length ∧ r.cmd = cmd ∧ r.x32 = 0 ∧ r.data.length = n ∧ din = r.data ++ r.din := by
  cases f with
  | f0 => simpa [takeOperands] using h.symm
  | f1 =>
    cases cmd with
    | nil => simp [takeOperands] at h
    | cons x rest =>
      obtain rfl : _ = r := by simpa using h
      simp
  | f2 =>
    simp only [takeOperands] at h
    split at h
    · next hn =>
      obtain rfl : _ = r := by simpa using h
      simp [hn]
    · simp at h

/-- What the decoder answers on a non-empty command stream (R94, R98). -/
theorem decode_cons (w0 : U32) (rest : List U32) (din : Bytes) :
    decode (w0 :: rest) din =
      match Opcode.ofCode (opcField w0) with
      | none => .rejected .illegalCommand w0 rest din
      | some o =>
        match takeOperands o.row.format (b16Field w0).toNat rest din with
        | none => .waiting
        | some r =>
          if o.reservedClear w0 then .op (o.assemble w0 r.x32 r.data) r.cmd r.din
          else .rejected .reservedField w0 r.cmd r.din := rfl

/-- The ways a decode ends (R98). -/
inductive DecodeCase (cmd : List U32) (din : Bytes) : Decoded → Prop where
  /-- Not all of the operation is there. -/
  | waiting : DecodeCase cmd din .waiting
  /-- The OPC check fails: word 0 alone is consumed (R94). -/
  | illegal (w0 : U32) (rest : List U32) (hcmd : cmd = w0 :: rest) (hcode : Opcode.ofCode (opcField w0) = none) :
      DecodeCase cmd din (.rejected .illegalCommand w0 rest din)
  /-- The reserved-field check fails: the whole operation is consumed (R94). -/
  | reserved (w0 : U32) (rest : List U32) (o : Opcode) (r : Operands) (hcmd : cmd = w0 :: rest)
      (hcode : o.row.code = opcField w0)
      (htake : takeOperands o.row.format (b16Field w0).toNat rest din = some r)
      (hres : o.reservedClear w0 = false) : DecodeCase cmd din (.rejected .reservedField w0 r.cmd r.din)
  /-- A whole operation. -/
  | op (w0 : U32) (rest : List U32) (o : Opcode) (r : Operands) (hcmd : cmd = w0 :: rest)
      (hcode : o.row.code = opcField w0)
      (htake : takeOperands o.row.format (b16Field w0).toNat rest din = some r)
      (hres : o.reservedClear w0 = true) : DecodeCase cmd din (.op (o.assemble w0 r.x32 r.data) r.cmd r.din)

/-- Every decode ends in one of these ways. -/
theorem decode_cases (cmd : List U32) (din : Bytes) : DecodeCase cmd din (decode cmd din) := by
  cases cmd with
  | nil => exact .waiting
  | cons w0 rest =>
    rw [decode_cons]
    cases ho : Opcode.ofCode (opcField w0) with
    | none => exact .illegal w0 rest rfl ho
    | some o =>
      have hcode := Opcode.ofCode_eq_some.1 ho
      cases hr : takeOperands o.row.format (b16Field w0).toNat rest din with
      | none => simpa [hr] using .waiting
      | some r =>
        cases hc : o.reservedClear w0 with
        | false => simpa [hr, hc] using .reserved w0 rest o r rfl hcode hr hc
        | true => simpa [hr, hc] using .op w0 rest o r rfl hcode hr hc

end Sys2Proof
end

