-- ==== Sys2Proof/Laws/State.lean ====
section
/-! SUPPORT. One lemma for each field after each named update of the state, so that no later proof unfolds a record
update. -/

namespace Sys2Proof.Machine

namespace State

variable (s : State)

/-! ### `setCrc` -/

@[simp] theorem setCrc_cfg (c : U16) : (s.setCrc c).cfg = s.cfg := rfl
@[simp] theorem setCrc_crc (c : U16) : (s.setCrc c).crc = c := rfl
@[simp] theorem setCrc_fill (c : U16) : (s.setCrc c).fill = s.fill := rfl
@[simp] theorem setCrc_last_ts (c : U16) : (s.setCrc c).last_ts = s.last_ts := rfl
@[simp] theorem setCrc_ovf (c : U16) : (s.setCrc c).ovf = s.ovf := rfl
@[simp] theorem setCrc_dir (c : U16) : (s.setCrc c).dir = s.dir := rfl
@[simp] theorem setCrc_rxbuf (c : U16) : (s.setCrc c).rxbuf = s.rxbuf := rfl
@[simp] theorem setCrc_cbuf (c : U16) : (s.setCrc c).cbuf = s.cbuf := rfl
@[simp] theorem setCrc_cmd (c : U16) : (s.setCrc c).cmd = s.cmd := rfl
@[simp] theorem setCrc_din (c : U16) : (s.setCrc c).din = s.din := rfl
@[simp] theorem setCrc_res (c : U16) : (s.setCrc c).res = s.res := rfl

/-! ### `setOvf` -/

@[simp] theorem setOvf_cfg (v : U1) : (s.setOvf v).cfg = s.cfg := rfl
@[simp] theorem setOvf_crc (v : U1) : (s.setOvf v).crc = s.crc := rfl
@[simp] theorem setOvf_fill (v : U1) : (s.setOvf v).fill = s.fill := rfl
@[simp] theorem setOvf_last_ts (v : U1) : (s.setOvf v).last_ts = s.last_ts := rfl
@[simp] theorem setOvf_ovf (v : U1) : (s.setOvf v).ovf = v := rfl
@[simp] theorem setOvf_dir (v : U1) : (s.setOvf v).dir = s.dir := rfl
@[simp] theorem setOvf_rxbuf (v : U1) : (s.setOvf v).rxbuf = s.rxbuf := rfl
@[simp] theorem setOvf_cbuf (v : U1) : (s.setOvf v).cbuf = s.cbuf := rfl
@[simp] theorem setOvf_cmd (v : U1) : (s.setOvf v).cmd = s.cmd := rfl
@[simp] theorem setOvf_din (v : U1) : (s.setOvf v).din = s.din := rfl
@[simp] theorem setOvf_res (v : U1) : (s.setOvf v).res = s.res := rfl

/-! ### `setLastTs` -/

@[simp] theorem setLastTs_cfg (ts : U32) : (s.setLastTs ts).cfg = s.cfg := rfl
@[simp] theorem setLastTs_crc (ts : U32) : (s.setLastTs ts).crc = s.crc := rfl
@[simp] theorem setLastTs_fill (ts : U32) : (s.setLastTs ts).fill = s.fill := rfl
@[simp] theorem setLastTs_last_ts (ts : U32) : (s.setLastTs ts).last_ts = ts := rfl
@[simp] theorem setLastTs_ovf (ts : U32) : (s.setLastTs ts).ovf = s.ovf := rfl
@[simp] theorem setLastTs_dir (ts : U32) : (s.setLastTs ts).dir = s.dir := rfl
@[simp] theorem setLastTs_rxbuf (ts : U32) : (s.setLastTs ts).rxbuf = s.rxbuf := rfl
@[simp] theorem setLastTs_cbuf (ts : U32) : (s.setLastTs ts).cbuf = s.cbuf := rfl
@[simp] theorem setLastTs_cmd (ts : U32) : (s.setLastTs ts).cmd = s.cmd := rfl
@[simp] theorem setLastTs_din (ts : U32) : (s.setLastTs ts).din = s.din := rfl
@[simp] theorem setLastTs_res (ts : U32) : (s.setLastTs ts).res = s.res := rfl

/-! ### `clearFill` -/

@[simp] theorem clearFill_cfg : s.clearFill.cfg = s.cfg := rfl
@[simp] theorem clearFill_crc : s.clearFill.crc = s.crc := rfl
@[simp] theorem clearFill_fill : s.clearFill.fill = 0 := rfl
@[simp] theorem clearFill_last_ts : s.clearFill.last_ts = s.last_ts := rfl
@[simp] theorem clearFill_ovf : s.clearFill.ovf = s.ovf := rfl
@[simp] theorem clearFill_dir : s.clearFill.dir = s.dir := rfl
@[simp] theorem clearFill_rxbuf : s.clearFill.rxbuf = s.rxbuf := rfl
@[simp] theorem clearFill_cbuf : s.clearFill.cbuf = s.cbuf := rfl
@[simp] theorem clearFill_cmd : s.clearFill.cmd = s.cmd := rfl
@[simp] theorem clearFill_din : s.clearFill.din = s.din := rfl
@[simp] theorem clearFill_res : s.clearFill.res = s.res := rfl

/-! ### `memWrite` -/

@[simp] theorem memWrite_cfg (a : Nat) (v : Byte) : (s.memWrite a v).cfg = s.cfg := rfl
@[simp] theorem memWrite_crc (a : Nat) (v : Byte) : (s.memWrite a v).crc = s.crc := rfl
@[simp] theorem memWrite_fill (a : Nat) (v : Byte) : (s.memWrite a v).fill = s.fill := rfl
@[simp] theorem memWrite_last_ts (a : Nat) (v : Byte) : (s.memWrite a v).last_ts = s.last_ts := rfl
@[simp] theorem memWrite_ovf (a : Nat) (v : Byte) : (s.memWrite a v).ovf = s.ovf := rfl
@[simp] theorem memWrite_dir (a : Nat) (v : Byte) : (s.memWrite a v).dir = s.dir := rfl
@[simp] theorem memWrite_rxbuf (a : Nat) (v : Byte) : (s.memWrite a v).rxbuf = s.rxbuf := rfl
@[simp] theorem memWrite_cbuf (a : Nat) (v : Byte) : (s.memWrite a v).cbuf = Memory.write s.cbuf a v := rfl
@[simp] theorem memWrite_cmd (a : Nat) (v : Byte) : (s.memWrite a v).cmd = s.cmd := rfl
@[simp] theorem memWrite_din (a : Nat) (v : Byte) : (s.memWrite a v).din = s.din := rfl
@[simp] theorem memWrite_res (a : Nat) (v : Byte) : (s.memWrite a v).res = s.res := rfl

/-! ### `respond` -/

@[simp] theorem respond_cfg (r : Response) : (s.respond r).cfg = s.cfg := rfl
@[simp] theorem respond_crc (r : Response) : (s.respond r).crc = s.crc := rfl
@[simp] theorem respond_fill (r : Response) : (s.respond r).fill = s.fill := rfl
@[simp] theorem respond_last_ts (r : Response) : (s.respond r).last_ts = s.last_ts := rfl
@[simp] theorem respond_ovf (r : Response) : (s.respond r).ovf = s.ovf := rfl
@[simp] theorem respond_dir (r : Response) : (s.respond r).dir = s.dir := rfl
@[simp] theorem respond_rxbuf (r : Response) : (s.respond r).rxbuf = s.rxbuf := rfl
@[simp] theorem respond_cbuf (r : Response) : (s.respond r).cbuf = s.cbuf := rfl
@[simp] theorem respond_cmd (r : Response) : (s.respond r).cmd = s.cmd := rfl
@[simp] theorem respond_din (r : Response) : (s.respond r).din = s.din := rfl
@[simp] theorem respond_res (r : Response) : (s.respond r).res = s.res ++ [r] := rfl

/-! ### `ok` -/

@[simp] theorem ok_cfg (v : Value) : (s.ok v).cfg = s.cfg := rfl
@[simp] theorem ok_crc (v : Value) : (s.ok v).crc = s.crc := rfl
@[simp] theorem ok_fill (v : Value) : (s.ok v).fill = s.fill := rfl
@[simp] theorem ok_last_ts (v : Value) : (s.ok v).last_ts = s.last_ts := rfl
@[simp] theorem ok_ovf (v : Value) : (s.ok v).ovf = s.ovf := rfl
@[simp] theorem ok_dir (v : Value) : (s.ok v).dir = s.dir := rfl
@[simp] theorem ok_rxbuf (v : Value) : (s.ok v).rxbuf = s.rxbuf := rfl
@[simp] theorem ok_cbuf (v : Value) : (s.ok v).cbuf = s.cbuf := rfl
@[simp] theorem ok_cmd (v : Value) : (s.ok v).cmd = s.cmd := rfl
@[simp] theorem ok_din (v : Value) : (s.ok v).din = s.din := rfl
@[simp] theorem ok_res (v : Value) : (s.ok v).res = s.res ++ [.ok v] := rfl

/-! ### `takeFault` -/

@[simp] theorem takeFault_cfg (c : FaultCode) (w : U32) : (s.takeFault c w).cfg = s.cfg := rfl
@[simp] theorem takeFault_crc (c : FaultCode) (w : U32) : (s.takeFault c w).crc = s.crc := rfl
@[simp] theorem takeFault_fill (c : FaultCode) (w : U32) : (s.takeFault c w).fill = s.fill := rfl
@[simp] theorem takeFault_last_ts (c : FaultCode) (w : U32) : (s.takeFault c w).last_ts = s.last_ts := rfl
@[simp] theorem takeFault_ovf (c : FaultCode) (w : U32) : (s.takeFault c w).ovf = s.ovf := rfl
@[simp] theorem takeFault_dir (c : FaultCode) (w : U32) : (s.takeFault c w).dir = s.dir := rfl
@[simp] theorem takeFault_rxbuf (c : FaultCode) (w : U32) : (s.takeFault c w).rxbuf = s.rxbuf := rfl
@[simp] theorem takeFault_cbuf (c : FaultCode) (w : U32) : (s.takeFault c w).cbuf = s.cbuf := rfl
@[simp] theorem takeFault_cmd (c : FaultCode) (w : U32) : (s.takeFault c w).cmd = s.cmd := rfl
@[simp] theorem takeFault_din (c : FaultCode) (w : U32) : (s.takeFault c w).din = s.din := rfl
@[simp] theorem takeFault_res (c : FaultCode) (w : U32) : (s.takeFault c w).res = s.res ++ [.fault c w] := rfl

/-! ### `consume` -/

@[simp] theorem consume_cfg (cmd : List U32) (din : Bytes) : (s.consume cmd din).cfg = s.cfg := rfl
@[simp] theorem consume_crc (cmd : List U32) (din : Bytes) : (s.consume cmd din).crc = s.crc := rfl
@[simp] theorem consume_fill (cmd : List U32) (din : Bytes) : (s.consume cmd din).fill = s.fill := rfl
@[simp] theorem consume_last_ts (cmd : List U32) (din : Bytes) : (s.consume cmd din).last_ts = s.last_ts := rfl
@[simp] theorem consume_ovf (cmd : List U32) (din : Bytes) : (s.consume cmd din).ovf = s.ovf := rfl
@[simp] theorem consume_dir (cmd : List U32) (din : Bytes) : (s.consume cmd din).dir = s.dir := rfl
@[simp] theorem consume_rxbuf (cmd : List U32) (din : Bytes) : (s.consume cmd din).rxbuf = s.rxbuf := rfl
@[simp] theorem consume_cbuf (cmd : List U32) (din : Bytes) : (s.consume cmd din).cbuf = s.cbuf := rfl
@[simp] theorem consume_cmd (cmd : List U32) (din : Bytes) : (s.consume cmd din).cmd = cmd := rfl
@[simp] theorem consume_din (cmd : List U32) (din : Bytes) : (s.consume cmd din).din = din := rfl
@[simp] theorem consume_res (cmd : List U32) (din : Bytes) : (s.consume cmd din).res = s.res := rfl

/-! ### `input` -/

@[simp] theorem input_cfg (ws : List U32) (bs : Bytes) : (s.input ws bs).cfg = s.cfg := rfl
@[simp] theorem input_crc (ws : List U32) (bs : Bytes) : (s.input ws bs).crc = s.crc := rfl
@[simp] theorem input_fill (ws : List U32) (bs : Bytes) : (s.input ws bs).fill = s.fill := rfl
@[simp] theorem input_last_ts (ws : List U32) (bs : Bytes) : (s.input ws bs).last_ts = s.last_ts := rfl
@[simp] theorem input_ovf (ws : List U32) (bs : Bytes) : (s.input ws bs).ovf = s.ovf := rfl
@[simp] theorem input_dir (ws : List U32) (bs : Bytes) : (s.input ws bs).dir = s.dir := rfl
@[simp] theorem input_rxbuf (ws : List U32) (bs : Bytes) : (s.input ws bs).rxbuf = s.rxbuf := rfl
@[simp] theorem input_cbuf (ws : List U32) (bs : Bytes) : (s.input ws bs).cbuf = s.cbuf := rfl
@[simp] theorem input_cmd (ws : List U32) (bs : Bytes) : (s.input ws bs).cmd = s.cmd ++ ws := rfl
@[simp] theorem input_din (ws : List U32) (bs : Bytes) : (s.input ws bs).din = s.din ++ bs := rfl
@[simp] theorem input_res (ws : List U32) (bs : Bytes) : (s.input ws bs).res = s.res := rfl

/-! ### `assertReceive` -/

@[simp] theorem assertReceive_cfg : s.assertReceive.cfg = s.cfg := rfl
@[simp] theorem assertReceive_crc : s.assertReceive.crc = s.crc := rfl
@[simp] theorem assertReceive_fill : s.assertReceive.fill = s.fill := rfl
@[simp] theorem assertReceive_last_ts : s.assertReceive.last_ts = s.last_ts := rfl
@[simp] theorem assertReceive_ovf : s.assertReceive.ovf = s.ovf := rfl
@[simp] theorem assertReceive_dir : s.assertReceive.dir = 0 := rfl
@[simp] theorem assertReceive_rxbuf : s.assertReceive.rxbuf = s.rxbuf := rfl
@[simp] theorem assertReceive_cbuf : s.assertReceive.cbuf = s.cbuf := rfl
@[simp] theorem assertReceive_cmd : s.assertReceive.cmd = s.cmd := rfl
@[simp] theorem assertReceive_din : s.assertReceive.din = s.din := rfl
@[simp] theorem assertReceive_res : s.assertReceive.res = s.res := rfl

/-! ### `assertTransmit` -/

@[simp] theorem assertTransmit_cfg : s.assertTransmit.cfg = s.cfg := by
  unfold assertTransmit; split <;> rfl
@[simp] theorem assertTransmit_crc : s.assertTransmit.crc = s.crc := by
  unfold assertTransmit; split <;> rfl
@[simp] theorem assertTransmit_fill : s.assertTransmit.fill = s.fill := by
  unfold assertTransmit; split <;> rfl
@[simp] theorem assertTransmit_last_ts : s.assertTransmit.last_ts = s.last_ts := by
  unfold assertTransmit; split <;> rfl
@[simp] theorem assertTransmit_ovf : s.assertTransmit.ovf = s.ovf := by
  unfold assertTransmit; split <;> rfl
@[simp] theorem assertTransmit_dir : s.assertTransmit.dir = if s.cfg.hasDir then 1 else s.dir := by
  unfold assertTransmit; split <;> rfl
@[simp] theorem assertTransmit_rxbuf : s.assertTransmit.rxbuf = s.rxbuf := by
  unfold assertTransmit; split <;> rfl
@[simp] theorem assertTransmit_cbuf : s.assertTransmit.cbuf = s.cbuf := by
  unfold assertTransmit; split <;> rfl
@[simp] theorem assertTransmit_cmd : s.assertTransmit.cmd = s.cmd := by
  unfold assertTransmit; split <;> rfl
@[simp] theorem assertTransmit_din : s.assertTransmit.din = s.din := by
  unfold assertTransmit; split <;> rfl
@[simp] theorem assertTransmit_res : s.assertTransmit.res = s.res := by
  unfold assertTransmit; split <;> rfl

/-! ### `storeByte` -/

@[simp] theorem storeByte_cfg (b : Byte) : (s.storeByte b).cfg = s.cfg := by
  unfold storeByte; split <;> rfl
@[simp] theorem storeByte_crc (b : Byte) : (s.storeByte b).crc = s.crc := by
  unfold storeByte; split <;> rfl
@[simp] theorem storeByte_fill (b : Byte) : (s.storeByte b).fill = if s.hasRoom then s.fill + 1 else s.fill := by
  unfold storeByte; split <;> rfl
@[simp] theorem storeByte_last_ts (b : Byte) : (s.storeByte b).last_ts = s.last_ts := by
  unfold storeByte; split <;> rfl
@[simp] theorem storeByte_ovf (b : Byte) : (s.storeByte b).ovf = s.ovf := by
  unfold storeByte; split <;> rfl
@[simp] theorem storeByte_dir (b : Byte) : (s.storeByte b).dir = s.dir := by
  unfold storeByte; split <;> rfl
@[simp] theorem storeByte_rxbuf (b : Byte) : (s.storeByte b).rxbuf = if s.hasRoom then s.rxbuf.setIfInBounds s.fill.toNat b else s.rxbuf := by
  unfold storeByte; split <;> rfl
@[simp] theorem storeByte_cbuf (b : Byte) : (s.storeByte b).cbuf = s.cbuf := by
  unfold storeByte; split <;> rfl
@[simp] theorem storeByte_cmd (b : Byte) : (s.storeByte b).cmd = s.cmd := by
  unfold storeByte; split <;> rfl
@[simp] theorem storeByte_din (b : Byte) : (s.storeByte b).din = s.din := by
  unfold storeByte; split <;> rfl
@[simp] theorem storeByte_res (b : Byte) : (s.storeByte b).res = s.res := by
  unfold storeByte; split <;> rfl

/-! ### Views -/

@[simp] theorem respond_lastResponse (r : Response) : (s.respond r).lastResponse = some r := by
  simp [lastResponse]

@[simp] theorem ok_lastResponse (v : Value) : (s.ok v).lastResponse = some (.ok v) := by
  simp [lastResponse]

@[simp] theorem takeFault_lastResponse (c : FaultCode) (w : U32) : (s.takeFault c w).lastResponse = some (.fault c w) := by
  simp [lastResponse]

theorem respond_dout (r : Response) : (s.respond r).dout = s.dout ++ r.outBytes := by
  simp [dout]

/-- The silence comparison depends on three fields and the parameters only. -/
theorem complete_congr {t : State} (now : U32) (hc : t.cfg = s.cfg) (hf : t.fill = s.fill)
    (hl : t.last_ts = s.last_ts) : t.complete now = s.complete now := by
  simp [complete, hc, hf, hl]

/-- Two states with the same fields are the same state. -/
theorem ext_fields {s t : State} (h1 : s.cfg = t.cfg) (h2 : s.crc = t.crc) (h3 : s.fill = t.fill)
    (h4 : s.last_ts = t.last_ts) (h5 : s.ovf = t.ovf) (h6 : s.dir = t.dir) (h7 : s.rxbuf = t.rxbuf)
    (h8 : s.cbuf = t.cbuf) (h9 : s.cmd = t.cmd) (h10 : s.din = t.din) (h11 : s.res = t.res) : s = t := by
  cases s; cases t; simp_all

end State

end Sys2Proof.Machine
end

