-- ==== Sys2Proof/Laws/Memory.lean ====
section
/-! SUPPORT. The caller buffer: a read after a write, the canonical form, and equal memories are equal data
(20_memory.md R61, R62). -/

namespace Sys2Proof.Machine

theorem Memory.wf_cons {c : Host.Cell} {rest : Memory} :
    wf (c :: rest) = true ↔ c.2 ≠ unlisted ∧ (∀ d ∈ rest, c.1 < d.1) ∧ wf rest = true := by
  obtain ⟨b, v⟩ := c
  simp [wf, and_assoc]

/-- An address below every listed one reads as an unlisted address. -/
theorem Memory.read_of_all_gt {m : Memory} {a : Nat} (h : ∀ d ∈ m, a < d.1) : read m a = unlisted := by
  induction m with
  | nil => rfl
  | cons c rest ih =>
    obtain ⟨b, v⟩ := c
    have hb : a < b := h (b, v) (by simp)
    simp only [read, if_neg (Nat.ne_of_gt hb)]
    exact ih fun d hd => h d (by simp [hd])

/-- A read of the written address gives the written byte. -/
theorem Memory.read_write_same {m : Memory} (a : Nat) (v : Byte) (h : wf m = true) : read (write m a v) a = v := by
  induction m with
  | nil => by_cases hv : v = unlisted <;> simp [write, read, hv]
  | cons c rest ih =>
    obtain ⟨b, w⟩ := c
    obtain ⟨-, hlt, hrest⟩ := wf_cons.1 h
    by_cases hab : a < b
    · have hgt : ∀ d ∈ (b, w) :: rest, a < d.1 := by
        rintro d (_ | ⟨_, hd⟩)
        · exact hab
        · exact Nat.lt_trans hab (hlt d hd)
      by_cases hv : v = unlisted
      · simpa [write, hab, hv] using read_of_all_gt hgt
      · simp [write, hab, hv, read]
    · by_cases heq : a = b
      · subst heq
        by_cases hv : v = unlisted
        · simpa [write, hv] using read_of_all_gt hlt
        · simp [write, hv, read]
      · simp only [write, if_neg hab, if_neg heq, read, if_neg (Ne.symm heq)]
        exact ih hrest

/-- A write leaves every other address alone (R62). -/
theorem Memory.read_write_other {m : Memory} {a x : Nat} (v : Byte) (h : x ≠ a) : read (write m a v) x = read m x := by
  induction m with
  | nil => by_cases hv : v = unlisted <;> simp [write, read, hv, Ne.symm h]
  | cons c rest ih =>
    obtain ⟨b, w⟩ := c
    by_cases hab : a < b
    · by_cases hv : v = unlisted <;> simp [write, hab, hv, read, Ne.symm h]
    · by_cases heq : a = b
      · subst heq
        by_cases hv : v = unlisted <;> simp [write, hv, read, Ne.symm h]
      · simp only [write, if_neg hab, if_neg heq, read, ih]

/-- The addresses a write lists: those listed before, and the written one. -/
theorem Memory.mem_write {m : Memory} {a : Nat} {v : Byte} {c : Host.Cell} (h : c ∈ write m a v) : c ∈ m ∨ c = (a, v) := by
  induction m with
  | nil => by_cases hv : v = unlisted <;> simp_all [write]
  | cons d rest ih =>
    obtain ⟨b, w⟩ := d
    unfold write at h
    split at h
    · split at h
      · exact .inl h
      · rcases List.mem_cons.1 h with rfl | h
        · exact .inr rfl
        · exact .inl h
    · split at h
      · split at h
        · exact .inl (List.mem_cons_of_mem _ h)
        · rcases List.mem_cons.1 h with rfl | h
          · exact .inr rfl
          · exact .inl (List.mem_cons_of_mem _ h)
      · rcases List.mem_cons.1 h with rfl | h
        · exact .inl (by simp)
        · exact (ih h).imp_left (List.mem_cons_of_mem _)

/-- Every write keeps the canonical form. -/
theorem Memory.wf_write {m : Memory} (a : Nat) (v : Byte) (h : wf m = true) : wf (write m a v) = true := by
  induction m with
  | nil => by_cases hv : v = unlisted <;> simp [write, wf, hv]
  | cons c rest ih =>
    obtain ⟨b, w⟩ := c
    obtain ⟨hw, hlt, hrest⟩ := wf_cons.1 h
    by_cases hab : a < b
    · by_cases hv : v = unlisted
      · simpa [write, hab, hv] using h
      · simp only [write, if_pos hab, if_neg hv]
        refine wf_cons.2 ⟨hv, ?_, h⟩
        rintro d (_ | ⟨_, hd⟩)
        · exact hab
        · exact Nat.lt_trans hab (hlt d hd)
    · by_cases heq : a = b
      · subst heq
        by_cases hv : v = unlisted
        · simpa [write, hv] using hrest
        · simp only [write, if_neg hab, if_neg hv, if_true]
          exact wf_cons.2 ⟨hv, hlt, hrest⟩
      · simp only [write, if_neg hab, if_neg heq]
        refine wf_cons.2 ⟨hw, fun d hd => ?_, ih hrest⟩
        rcases mem_write hd with hd | rfl
        · exact hlt d hd
        · exact Nat.lt_of_le_of_ne (Nat.le_of_not_lt hab) (Ne.symm heq)

/-- Memories in canonical form that read alike are the same data. -/
theorem Memory.ext_of_read {m n : Memory} (hm : wf m = true) (hn : wf n = true) (h : ∀ a, read m a = read n a) : m = n := by
  induction m generalizing n with
  | nil =>
    cases n with
    | nil => rfl
    | cons c rest =>
      have := h c.1
      simp only [read, if_true] at this
      exact absurd this.symm (wf_cons.1 hn).1
  | cons c rest ih =>
    obtain ⟨b, v⟩ := c
    obtain ⟨hv, hlt, hrest⟩ := wf_cons.1 hm
    cases n with
    | nil =>
      have := h b
      simp only [read, if_true] at this
      exact absurd this hv
    | cons d tail =>
      obtain ⟨b', v'⟩ := d
      obtain ⟨hv', hlt', hrest'⟩ := wf_cons.1 hn
      have hb : b = b' := by
        rcases Nat.lt_trichotomy b b' with hl | hl | hl
        · have := h b
          rw [read_of_all_gt (m := (b', v') :: tail)] at this
          · simp only [read, if_true] at this
            exact absurd this hv
          · rintro d (_ | ⟨_, hd⟩)
            · exact hl
            · exact Nat.lt_trans hl (hlt' d hd)
        · exact hl
        · have := h b'
          rw [read_of_all_gt (m := (b, v) :: rest)] at this
          · simp only [read, if_true] at this
            exact absurd this.symm hv'
          · rintro d (_ | ⟨_, hd⟩)
            · exact hl
            · exact Nat.lt_trans hl (hlt d hd)
      subst hb
      have hvv : v = v' := by simpa [read] using h b
      subst hvv
      congr 1
      refine ih hrest hrest' fun a => ?_
      by_cases ha : b = a
      · subst ha
        rw [read_of_all_gt hlt, read_of_all_gt hlt']
      · simpa [read, ha] using h a

namespace State

/-- Reading back the byte just written (R62). -/
theorem memRead_memWrite_same {s : State} (a : Nat) (v : Byte) (h : Memory.wf s.cbuf = true) :
    (s.memWrite a v).memRead a = v := Memory.read_write_same a v h

/-- A write changes no other address (R62). -/
theorem memRead_memWrite_other {s : State} {a x : Nat} (v : Byte) (h : x ≠ a) :
    (s.memWrite a v).memRead x = s.memRead x := Memory.read_write_other v h

/-- Reading depends on the caller buffer alone. -/
theorem memRead_congr {s t : State} (h : t.cbuf = s.cbuf) (a : Nat) : t.memRead a = s.memRead a := by
  simp [memRead, h]

end State

end Sys2Proof.Machine
end

