-- ==== Sys2Proof/Laws/Exec.lean ====
section
/-! SUPPORT. What an operation, a list of operations and a step can do, said once: proofs cite these and do not unfold
`exec`, `execAll` or `step`. -/

namespace Sys2Proof.Machine

/-! ### Operands and flags -/

/-- When the bounds check passes, and what it answers (41_codec.md R170). -/
theorem bitAddr_eq_some {cfg : Config} {idx : U16} {nbits : U32} {a p : Nat} :
    bitAddr cfg idx nbits = some (a, p) ↔
      idx.toNat < nbits.toNat ∧ idx.toNat / 8 < cfg.cbufBytes.val ∧ a = idx.toNat / 8 ∧ p = idx.toNat % 8 := by
  have hz : (idx.setWidth 32).toNat = idx.toNat := by have := idx.isLt; simp; omega
  unfold bitAddr
  simp only [BitVec.le_def, hz]
  split
  · simp; omega
  · split
    · simp; omega
    · simp; omega

/-- When the bounds check fails. -/
theorem bitAddr_eq_none {cfg : Config} {idx : U16} {nbits : U32} :
    bitAddr cfg idx nbits = none ↔ nbits.toNat ≤ idx.toNat ∨ cfg.cbufBytes.val ≤ idx.toNat / 8 := by
  have hz : (idx.setWidth 32).toNat = idx.toNat := by have := idx.isLt; simp; omega
  unfold bitAddr
  simp only [BitVec.le_def, hz]
  split
  · simp; omega
  · split
    · simp; omega
    · simp; omega

/-- Room for a byte, as a number (42_assembler.md R202). -/
theorem State.hasRoom_iff {s : State} : s.hasRoom = true ↔ s.fill.toNat < 256 := by simp [State.hasRoom, rxCap]

/-- `complete` as numbers (42_assembler.md R200). -/
theorem State.complete_iff {s : State} {now : U32} :
    s.complete now = true ↔ 0 < s.fill.toNat ∧ s.cfg.tIfdMs.toNat ≤ (now - s.last_ts).toNat := by
  simp [State.complete, elapsed, BitVec.lt_def, BitVec.le_def]

/-- `elapsed` as a number. -/
theorem elapsed_toNat (now ts : U32) : (elapsed now ts).toNat = (now.toNat + (2 ^ 32 - ts.toNat)) % 2 ^ 32 := by
  simp [elapsed, BitVec.toNat_sub]; omega

/-! ### One operation -/

/-- The state an operation leaves. -/
def effect : Instr → State → State
  | .crcInit, s => (s.setCrc crcInitValue).ok .unit
  | .crcUpdate b, s => (s.setCrc (crcStep s.crc b)).ok .unit
  | .crcRead, s => s.ok (.word s.crc)
  | .crcCompute bytes, s => s.ok (.word (crc16 bytes))
  | .crcVerify frame, s => s.ok (.bit (verify frame))
  | .crcAppend bytes, s => s.ok (.bytes (appendCrc bytes))
  | .bitPack idx v nbits, s =>
    match bitAddr s.cfg idx nbits with
    | none => s.takeFault .bitIndexRange (Instr.word0 (.bitPack idx v nbits))
    | some (a, p) => (s.memWrite a (packBit (s.memRead a) p v)).ok .unit
  | .bitRead idx nbits, s =>
    match bitAddr s.cfg idx nbits with
    | none => s.takeFault .bitIndexRange (Instr.word0 (.bitRead idx nbits))
    | some (a, p) => s.ok (.bit (readBit (s.memRead a) p))
  | .w16To value, s => s.ok (.bytes (toWire16 value))
  | .w16From hi lo, s => s.ok (.word (fromWire16 hi lo))
  | .rxByte b ts, s => (((s.storeByte b).setOvf s.ovfAfterByte).setLastTs ts).ok .unit
  | .rxPoll now, s =>
    if s.complete now then (s.clearFill.setOvf (s.ovfAfterPoll now)).ok (.poll ⟨1, s.ovf, s.frame⟩)
    else s.ok (.poll ⟨0, s.ovf, []⟩)
  | .rxStatus, s => s.ok (.status ⟨s.fill, s.ovf, s.last_ts⟩)
  | .dirTx, s => s.assertTransmit.ok .unit
  | .dirRx, s => s.assertReceive.ok .unit

/-- An operation answers the state of its effect. -/
theorem exec_eq (i : Instr) (s : State) : exec i s = .next (effect i s) := by cases i <;> rfl

theorem exec_next {i : Instr} {s t : State} (h : exec i s = .next t) : t = effect i s := by
  rw [exec_eq] at h
  exact (Host.Outcome.next.inj h).symm

/-- An operation gives exactly one response and leaves the streams and the parameters alone. -/
theorem effect_ports (i : Instr) (s : State) :
    (effect i s).cfg = s.cfg ∧ (effect i s).cmd = s.cmd ∧ (effect i s).din = s.din ∧
      ∃ r, (effect i s).res = s.res ++ [r] := by
  cases i <;> simp only [effect] <;> (try split) <;> simp

@[simp] theorem effect_cfg (i : Instr) (s : State) : (effect i s).cfg = s.cfg := (effect_ports i s).1

@[simp] theorem effect_cmd (i : Instr) (s : State) : (effect i s).cmd = s.cmd := (effect_ports i s).2.1

@[simp] theorem effect_din (i : Instr) (s : State) : (effect i s).din = s.din := (effect_ports i s).2.2.1

theorem effect_res (i : Instr) (s : State) : ∃ r, (effect i s).res = s.res ++ [r] := (effect_ports i s).2.2.2

/-- Only the CRC unit writes `crc` (10_state.md R33). -/
theorem effect_crc {i : Instr} (h : unitOf i ≠ .crc) (s : State) : (effect i s).crc = s.crc := by
  cases i <;> simp only [effect, unitOf, ne_eq, not_true_eq_false, reduceCtorEq, not_false_eq_true] at h ⊢ <;>
    (try split) <;> simp

/-- Only the codec unit writes the caller buffer (20_memory.md R70). -/
theorem effect_cbuf {i : Instr} (h : unitOf i ≠ .codec) (s : State) : (effect i s).cbuf = s.cbuf := by
  cases i <;> simp only [effect, unitOf, ne_eq, not_true_eq_false, reduceCtorEq, not_false_eq_true] at h ⊢ <;>
    (try split) <;> simp

/-- Only the assembler unit writes the assembler's state (10_state.md R34 to R38). -/
theorem effect_assembler {i : Instr} (h : unitOf i ≠ .assembler) (s : State) :
    (effect i s).fill = s.fill ∧ (effect i s).last_ts = s.last_ts ∧ (effect i s).ovf = s.ovf ∧
      (effect i s).rxbuf = s.rxbuf := by
  cases i <;> simp only [effect, unitOf, ne_eq, not_true_eq_false, reduceCtorEq, not_false_eq_true] at h ⊢ <;>
    (try split) <;> simp

/-- Only the direction unit writes `dir` (10_state.md R37). -/
theorem effect_dir {i : Instr} (h : unitOf i ≠ .direction) (s : State) : (effect i s).dir = s.dir := by
  cases i <;> simp only [effect, unitOf, ne_eq, not_true_eq_false, reduceCtorEq, not_false_eq_true] at h ⊢ <;>
    (try split) <;> simp

/-! ### Lists of operations -/

/-- The state a list of operations leaves. -/
def effects (ops : List Instr) (s : State) : State := ops.foldl (fun t i => effect i t) s

@[simp] theorem effects_nil (s : State) : effects [] s = s := rfl

@[simp] theorem effects_cons (i : Instr) (ops : List Instr) (s : State) :
    effects (i :: ops) s = effects ops (effect i s) := rfl

theorem effects_append (ops ops' : List Instr) (s : State) : effects (ops ++ ops') s = effects ops' (effects ops s) := by
  simp [effects, List.foldl_append]

theorem execAll_eq (ops : List Instr) (s : State) : execAll ops s = .next (effects ops s) := by
  induction ops generalizing s with
  | nil => rfl
  | cons i ops ih => rw [execAll, exec_eq]; exact ih _

theorem execAll_next {ops : List Instr} {s t : State} (h : execAll ops s = .next t) : t = effects ops s := by
  rw [execAll_eq] at h
  exact (Host.Outcome.next.inj h).symm

@[simp] theorem effects_cfg (ops : List Instr) (s : State) : (effects ops s).cfg = s.cfg := by
  induction ops generalizing s with
  | nil => rfl
  | cons i ops ih => simp [ih]

/-! ### One step -/

/-- The ways a step ends: waiting, a fault of the decoder, or one operation on the consumed streams. -/
inductive StepCase (s : State) : State → Prop where
  | waiting (h : decode s.cmd s.din = .waiting) : StepCase s s
  | rejected (code : FaultCode) (w0 : U32) (cmd : List U32) (din : Bytes)
      (h : decode s.cmd s.din = .rejected code w0 cmd din) : StepCase s ((s.consume cmd din).takeFault code w0)
  | op (i : Instr) (cmd : List U32) (din : Bytes) (h : decode s.cmd s.din = .op i cmd din) :
      StepCase s (effect i (s.consume cmd din))

/-- Every step that answers a next state ends in one of these ways. -/
theorem step_cases {s t : State} (h : step s = .next t) : StepCase s t := by
  unfold step at h
  split at h
  · next hd => obtain rfl := Host.Outcome.next.inj h; exact .waiting hd
  · next code w0 cmd din hd => obtain rfl := Host.Outcome.next.inj h; exact .rejected code w0 cmd din hd
  · next i cmd din hd => obtain rfl := exec_next h; exact .op i cmd din hd

end Sys2Proof.Machine
end

