-- ==== Sys2Proof/Laws/PerInstr.lean ====
section
/-! SUPPORT. Facts about every operation as a term, one lemma for each constructor of Instr: its word 0 carries its own
row's code and no reserved bit (30_encoding.md R96, R97). -/

namespace Sys2Proof.Laws.EncodesLegally

open Sys2Proof

/-- An operation's word 0 names its own row of R96, and every reserved bit of the word is zero. -/
def Statement (i : Instr) : Prop :=
  Opcode.ofCode (opcField i.word0) = some i.opcode ∧ i.opcode.reservedClear i.word0 = true

theorem opcode_named (i : Instr) : Opcode.ofCode (opcField i.word0) = some i.opcode := by
  rw [Instr.word0, opcField_mkWord0, Opcode.ofCode_code]

theorem crcInit : Statement .crcInit := ⟨opcode_named _, by decide⟩

theorem crcUpdate (b : Byte) : Statement (.crcUpdate b) :=
  ⟨opcode_named _, by simp [Opcode.reservedClear, Instr.word0, Instr.opcode, Opcode.row, Instr.a8, Instr.b16]⟩

theorem crcRead : Statement .crcRead := ⟨opcode_named _, by decide⟩

theorem crcCompute (bytes : Bytes) : Statement (.crcCompute bytes) :=
  ⟨opcode_named _, by simp [Opcode.reservedClear, Instr.word0, Instr.opcode, Opcode.row, Instr.a8, Instr.b16]⟩

theorem crcVerify (frame : Bytes) : Statement (.crcVerify frame) :=
  ⟨opcode_named _, by simp [Opcode.reservedClear, Instr.word0, Instr.opcode, Opcode.row, Instr.a8, Instr.b16]⟩

theorem crcAppend (bytes : Bytes) : Statement (.crcAppend bytes) :=
  ⟨opcode_named _, by simp [Opcode.reservedClear, Instr.word0, Instr.opcode, Opcode.row, Instr.a8, Instr.b16]⟩

theorem bitPack (idx : U16) (v : U1) (nbits : U32) : Statement (.bitPack idx v nbits) := by
  refine ⟨opcode_named _, ?_⟩
  have h : ∀ v : U1, (v.setWidth 8 : Byte) &&& 0xFE#8 = 0 := by decide
  simp [Opcode.reservedClear, Instr.word0, Instr.opcode, Opcode.row, Instr.a8, Instr.b16, h]

theorem bitRead (idx : U16) (nbits : U32) : Statement (.bitRead idx nbits) :=
  ⟨opcode_named _, by simp [Opcode.reservedClear, Instr.word0, Instr.opcode, Opcode.row, Instr.a8, Instr.b16]⟩

theorem w16To (value : U16) : Statement (.w16To value) :=
  ⟨opcode_named _, by simp [Opcode.reservedClear, Instr.word0, Instr.opcode, Opcode.row, Instr.a8, Instr.b16]⟩

theorem w16From (hi lo : Byte) : Statement (.w16From hi lo) := by
  refine ⟨opcode_named _, ?_⟩
  have h : (lo.setWidth 16 : U16) &&& 0xFF00#16 = 0 := by revert lo; decide
  simp [Opcode.reservedClear, Instr.word0, Instr.opcode, Opcode.row, Instr.a8, Instr.b16, h]

theorem rxByte (b : Byte) (ts : U32) : Statement (.rxByte b ts) :=
  ⟨opcode_named _, by simp [Opcode.reservedClear, Instr.word0, Instr.opcode, Opcode.row, Instr.a8, Instr.b16]⟩

theorem rxPoll (now : U32) : Statement (.rxPoll now) :=
  ⟨opcode_named _, by simp [Opcode.reservedClear, Instr.word0, Instr.opcode, Opcode.row, Instr.a8, Instr.b16]⟩

theorem rxStatus : Statement .rxStatus := ⟨opcode_named _, by decide⟩

theorem dirTx : Statement .dirTx := ⟨opcode_named _, by decide⟩

theorem dirRx : Statement .dirRx := ⟨opcode_named _, by decide⟩

end Sys2Proof.Laws.EncodesLegally
end

