-- ==== Sys2Proof/Laws/Wire.lean ====
section
/-! SUPPORT. What a read response's payload is, said once (30_encoding.md R109). -/

namespace Sys2Proof.Machine

/-- When a read response exists, and what it is. -/
theorem readResponsePayload_eq_some {values : List U16} {p : Bytes} :
    readResponsePayload values = some p ↔
      values.length ≤ 127 ∧ p = BitVec.ofNat 8 (2 * values.length) :: values.flatMap toWire16 := by
  unfold readResponsePayload
  split
  · rw [Option.some.injEq, eq_comm]
    exact (and_iff_right (by omega)).symm
  · exact iff_of_false (by simp) fun h => by omega

/-- When none exists. -/
theorem readResponsePayload_eq_none {values : List U16} : readResponsePayload values = none ↔ 128 ≤ values.length := by
  unfold readResponsePayload
  split <;> simp <;> omega

/-- Each register takes two bytes. -/
theorem length_flatMap_toWire16 (values : List U16) : (values.flatMap toWire16).length = 2 * values.length := by
  induction values with
  | nil => rfl
  | cons v values ih => rw [List.flatMap_cons, List.length_append, ih]; simp [toWire16]; omega

/-- The byte count of a read response is twice the number of registers, and it answers a request for that many. -/
theorem answersRead_of_readResponsePayload {values : List U16} {p : Bytes} (h : readResponsePayload values = some p) :
    answersRead values.length p = true := by
  obtain ⟨hlen, rfl⟩ := readResponsePayload_eq_some.1 h
  simp only [answersRead, length_flatMap_toWire16, BitVec.toNat_ofNat, Bool.and_eq_true, decide_eq_true_eq, and_true]
  omega

end Sys2Proof.Machine
end

