-- ==== Sys2Proof/Tests/Slice0.lean ====
section
/-! SUPPORT. Small tests, each about one step, with results taken from 95_test_vectors.md; and for every statement with
hypotheses a witness: concrete values that meet them together, at the ends of their ranges. -/

namespace Sys2Proof.Tests

open Sys2Proof.Machine

/- One theorem at a time: many at once, each with a stack of its own, pass the checker's memory limit. -/
set_option Elab.async false

/-! ### Helpers -/

/-- The state after reset with the parameters of 95_test_vectors.md: T_IFD_MS 4, CBUF_BYTES 2, HAS_DIR true. -/
def s0 : State := { State.reset with cfg := ⟨4, 2, true⟩ }

/-- What a step on these two streams leaves, tested by `p`; false when it is not a next state. -/
def afterStep (s : State) (cmd : List U32) (din : Bytes) (p : State → Bool) : Bool :=
  match step { s with cmd := cmd, din := din } with
  | .next t => p t
  | .fault _ => false
  | .refused _ => false

/-- The one step that runs an issued operation gives this response and leaves a state with `p`. -/
def runs (s : State) (i : Instr) (r : Response) (p : State → Bool) : Bool :=
  afterStep s (encode i).1 (encode i).2 fun t => t.lastResponse == some r && p t

/-- The state holds these five registers (95_test_vectors.md, notation). -/
def regs (crc : U16) (fill : U9) (last_ts : U32) (ovf dir : U1) (t : State) : Bool :=
  t.crc == crc && t.fill == fill && t.last_ts == last_ts && t.ovf == ovf && t.dir == dir

/-- The first two bytes of the caller buffer. -/
def buffer (b0 b1 : Byte) (t : State) : Bool := t.memRead 0 == b0 && t.memRead 1 == b1

/-- `s0` with two bytes in the caller buffer. -/
def withBuffer (b0 b1 : Byte) : State := (s0.memWrite 0 b0).memWrite 1 b1

/-- `s0` holding these bytes in the assembler. -/
def holding (bytes : Bytes) (last_ts : U32) (ovf : U1) : State :=
  { s0 with rxbuf := Vector.ofFn fun k => bytes.getD k.val 0, fill := BitVec.ofNat 9 bytes.length,
            last_ts := last_ts, ovf := ovf }

/-! ### WellFormed: ill-formed terms are refused, the longest operand is not (R93, R100) -/

theorem test_wf_compute_too_long : (Instr.crcCompute (List.replicate 65536 0)).wellFormed = false := by
  rw [Instr.wellFormed, List.length_replicate]; decide
theorem test_wf_verify_too_long : (Instr.crcVerify (List.replicate 65536 0)).wellFormed = false := by
  rw [Instr.wellFormed, List.length_replicate]; decide
theorem test_wf_append_too_long : (Instr.crcAppend (List.replicate 65536 0)).wellFormed = false := by
  rw [Instr.wellFormed, List.length_replicate]; decide

/-! ### Decoding: one word of R96 for every constructor, from the encodings of P1 to P4 where they have it -/

theorem test_decode_crcInit : decode [0x10000000] [] = .op .crcInit [] [] := by decide
theorem test_decode_crcUpdate : decode [0x110A0000] [] = .op (.crcUpdate 0x0A) [] [] := by decide
theorem test_decode_crcRead : decode [0x12000000] [] = .op .crcRead [] [] := by decide
/-- CRC.COMPUTE of two bytes: OPC 0x13, A8 0, B16 the count (R96, R93). -/
theorem test_decode_crcCompute : decode [0b00010011_00000000_0000000000000010] [0xFF, 0xFE, 0xFD] =
    .op (.crcCompute [0xFF, 0xFE]) [] [0xFD] := by decide
theorem test_decode_crcVerify : decode [0x14000007] [0x01, 0x03, 0x02, 0x04, 0xD2, 0x3A, 0xD9] =
    .op (.crcVerify [0x01, 0x03, 0x02, 0x04, 0xD2, 0x3A, 0xD9]) [] [] := by decide
theorem test_decode_crcAppend : decode [0x15000006] [0x01, 0x03, 0x00, 0x0A, 0x00, 0x01] =
    .op (.crcAppend [0x01, 0x03, 0x00, 0x0A, 0x00, 0x01]) [] [] := by decide
theorem test_decode_bitPack : decode [0b00100000_0000000_1_0000000000001001, 0x00000010] [] =
    .op (.bitPack 9 1 16) [] [] := by decide
theorem test_decode_bitRead : decode [0x21000009, 0x00000010] [] = .op (.bitRead 9 16) [] [] := by decide
/-- W16.TO 0x04D2: OPC 0x22, A8 0, B16 the value (R96, R95). -/
theorem test_decode_w16To : decode [0b00100010_00000000_0000010011010010] [] = .op (.w16To 0x04D2) [] [] := by decide
theorem test_decode_w16From : decode [0b00100011_00000100_00000000_11010010] [] =
    .op (.w16From 0x04 0xD2) [] [] := by decide
theorem test_decode_rxByte : decode [0b00110000_11010010_0000000000000000, 0x000003EC] [] =
    .op (.rxByte 0xD2 1004) [] [] := by decide
theorem test_decode_rxPoll : decode [0x31000000, 0x000003F1] [] = .op (.rxPoll 1009) [] [] := by decide
theorem test_decode_rxStatus : decode [0x32000000] [] = .op .rxStatus [] [] := by decide
theorem test_decode_dirTx : decode [0x40000000] [] = .op .dirTx [] [] := by decide
theorem test_decode_dirRx : decode [0x41000000] [] = .op .dirRx [] [] := by decide

/-- F1: word 1 is bits 63..32 of the number, and without a second word given it is 0. -/
theorem test_tableWord_f1 : decodeTableWord 64 0x00000010_20010009 = some (.bitPack 9 1 16) := by decide
theorem test_tableWord_f1_short : decodeTableWord 32 0x31000000 = some (.rxPoll 0) := by decide
/-- F2: the data bytes lie from bit 32 up, byte 0 lowest. -/
theorem test_tableWord_f2 : decodeTableWord 48 0x03FF_14000002 = some (.crcVerify [0xFF, 0x03]) := by decide
theorem test_tableWord_reserved : decodeTableWord 32 0x10010000 = none := by decide

/-- A placed instruction is the one the next step runs. -/
theorem test_withFetchWord : (match step (s0.withFetchWord 32 0x40000000) with
    | .next t => t.dir == 1 && t.cmd == []
    | .fault _ => false
    | .refused _ => false) = true := by decide +kernel

/-- P2 row 5 and P1 row 9: the encodings the spec writes out. -/
theorem test_encode_rxByte : encode (.rxByte 0xD2 1004) = ([0x30D20000, 0x000003EC], []) := by decide
theorem test_encode_crcAppend : encode (.crcAppend [0x01, 0x07]) = ([0x15000002], [0x01, 0x07]) := by decide

/-! ### Rejected words (V-ENC-1 to V-ENC-6, V-BIT-10, V-BIT-11, V-W16-3, V-RX-10, V-DIR-4) -/

/-- These streams give this fault, consume both streams whole but `rest`, and leave the registers alone. -/
def faults (cmd : List U32) (din : Bytes) (c : FaultCode) (w0 : U32) (rest : List U32) : Bool :=
  afterStep s0 cmd din fun t =>
    t.lastResponse == some (.fault c w0) && t.cmd == rest && t.din == [] && regs 0xFFFF 0 0 0 0 t && buffer 0 0 t

theorem test_enc_1 : faults [0x10010000] [] .reservedField 0x10010000 [] = true := by decide +kernel
theorem test_enc_2 : faults [0x11000001] [] .reservedField 0x11000001 [] = true := by decide +kernel
theorem test_enc_3 : faults [0x16000000] [] .illegalCommand 0x16000000 [] = true := by decide +kernel
theorem test_enc_5 : faults [0xFF123456, 0x40000000] [] .illegalCommand 0xFF123456 [0x40000000] = true := by
  decide +kernel
theorem test_enc_6 : faults [0x14010002] [0xFF, 0xFF] .reservedField 0x14010002 [] = true := by decide +kernel
theorem test_bit_10 : faults [0x20020000, 16, 0x40000000] [] .reservedField 0x20020000 [0x40000000] = true := by
  decide +kernel
theorem test_w16_3 : faults [0x230401D2] [] .reservedField 0x230401D2 [] = true := by decide +kernel
theorem test_rx_10 : faults [0x30110001, 7] [] .reservedField 0x30110001 [] = true := by decide +kernel

/-! ### CRC unit (V-CRC, V-VER, P1) -/

theorem test_crcInit : runs { s0 with crc := 0x08A4 } .crcInit (.ok .unit) (regs 0xFFFF 0 0 0 0) = true := by
  decide +kernel
/-- P1 row 2. -/
theorem test_crcUpdate : runs s0 (.crcUpdate 0x01) (.ok .unit) (regs 0x807E 0 0 0 0) = true := by decide +kernel
/-- V-CRC-22, second update. -/
theorem test_crcUpdate_residue : runs { s0 with crc := 0x0008 } (.crcUpdate 0x08) (.ok .unit) (regs 0 0 0 0 0) =
    true := by decide +kernel
/-- V-CRC-23. -/
theorem test_crcRead : runs s0 .crcRead (.ok (.word 0xFFFF)) (regs 0xFFFF 0 0 0 0) = true := by decide +kernel
/-- V-CRC-1. -/
theorem test_crcCompute : runs s0 (.crcCompute [0x31, 0x32, 0x33, 0x34, 0x35, 0x36, 0x37, 0x38, 0x39])
    (.ok (.word 0x4B37)) (regs 0xFFFF 0 0 0 0) = true := by decide +kernel
/-- V-CRC-5. -/
theorem test_crcStep : crcStep 0xFFFF 0xFF = 0x00FF ∧ crcStep 0xFFFF 0x80 = 0xE0BE := by decide +kernel
/-- V-VER-6 and V-VER-8. -/
theorem test_crcVerify : runs s0 (.crcVerify [0x01, 0x03, 0x02, 0x04, 0xD2, 0x3A, 0xD9]) (.ok (.bit 1))
    (regs 0xFFFF 0 0 0 0) = true := by decide +kernel
theorem test_crcVerify_order : runs s0 (.crcVerify [0x01, 0x03, 0x02, 0x04, 0xD2, 0xD9, 0x3A]) (.ok (.bit 0))
    (regs 0xFFFF 0 0 0 0) = true := by decide +kernel
/-- V-VER-1 to V-VER-5. -/
theorem test_verify_short : verify [] = 0 ∧ verify [0x12] = 0 ∧ verify [0xFF, 0xFF] = 1 ∧ verify [0x00, 0x00] = 0 ∧
    verify [0x00, 0xBF, 0x40] = 1 := by decide +kernel
/-- V-CRC-13 and V-CRC-8. -/
theorem test_crcAppend : runs s0 (.crcAppend [0x01, 0x03, 0x00, 0x0A, 0x00, 0x01])
    (.ok (.bytes [0x01, 0x03, 0x00, 0x0A, 0x00, 0x01, 0xA4, 0x08])) (regs 0xFFFF 0 0 0 0) = true := by decide +kernel
theorem test_crcAppend_zero_low : runs s0 (.crcAppend [0x00, 0x00, 0x00, 0x00])
    (.ok (.bytes [0x00, 0x00, 0x00, 0x00, 0x00, 0x24])) (regs 0xFFFF 0 0 0 0) = true := by decide +kernel

/-! ### Codec unit (V-BIT, V-W16) -/

/-- V-BIT-4 and V-BIT-5. -/
theorem test_bitPack_set : runs s0 (.bitPack 15 1 16) (.ok .unit) (buffer 0x00 0x80) = true := by decide +kernel
theorem test_bitPack_clear : runs (withBuffer 0xFF 0xFF) (.bitPack 3 0 16) (.ok .unit) (buffer 0xF7 0xFF) = true := by
  decide +kernel
/-- V-BIT-7 to V-BIT-9. -/
theorem test_bitPack_range : runs s0 (.bitPack 16 1 16) (.fault .bitIndexRange 0x20010010) (buffer 0 0) = true ∧
    runs s0 (.bitPack 5 1 0) (.fault .bitIndexRange 0x20010005) (buffer 0 0) = true ∧
    runs s0 (.bitPack 16 1 100) (.fault .bitIndexRange 0x20010010) (buffer 0 0) = true := by decide +kernel
/-- V-BIT-6. -/
theorem test_bitRead : runs (withBuffer 0x09 0x00) (.bitRead 3 16) (.ok (.bit 1)) (buffer 0x09 0x00) = true ∧
    runs (withBuffer 0x09 0x00) (.bitRead 1 16) (.ok (.bit 0)) (buffer 0x09 0x00) = true := by decide +kernel
/-- V-W16-1 and V-W16-2. -/
theorem test_w16To : runs s0 (.w16To 0x1234) (.ok (.bytes [0x12, 0x34])) (regs 0xFFFF 0 0 0 0) = true := by
  decide +kernel
theorem test_w16From : runs s0 (.w16From 0x04 0xD2) (.ok (.word 1234)) (regs 0xFFFF 0 0 0 0) = true := by
  decide +kernel

/-! ### Assembler unit (V-RX, P2, P4) -/

/-- P2 row 2. -/
theorem test_rxByte : runs (holding [0x01] 1000 0) (.rxByte 0x03 1001) (.ok .unit)
    (fun t => regs 0xFFFF 2 1001 0 0 t && t.frame == [0x01, 0x03]) = true := by decide +kernel
/-- V-RX-6, the byte that finds the buffer full. -/
theorem test_rxByte_full : runs { s0 with fill := 256, last_ts := 255 } (.rxByte 0xAA 256) (.ok .unit)
    (fun t => regs 0xFFFF 256 256 1 0 t && t.rxbuf == s0.rxbuf) = true := by decide +kernel
/-- P4 rows 3 and 6: elapsed 3 and 4 across the wrap. -/
theorem test_rxPoll_wait : runs (holding [0x11, 0x22] 0xFFFFFFFE 0) (.rxPoll 0x00000001) (.ok (.poll ⟨0, 0, []⟩))
    (regs 0xFFFF 2 0xFFFFFFFE 0 0) = true := by decide +kernel
theorem test_rxPoll_deliver : runs (holding [0x11, 0x22] 0xFFFFFFFE 1) (.rxPoll 0x00000002)
    (.ok (.poll ⟨1, 1, [0x11, 0x22]⟩)) (regs 0xFFFF 0 0xFFFFFFFE 0 0) = true := by decide +kernel
/-- V-RX-1 and V-RX-5. -/
theorem test_rxPoll_idle_and_early : runs s0 (.rxPoll 100) (.ok (.poll ⟨0, 0, []⟩)) (regs 0xFFFF 0 0 0 0) = true ∧
    runs (holding [0x55] 1000 0) (.rxPoll 999) (.ok (.poll ⟨1, 0, [0x55]⟩)) (regs 0xFFFF 0 1000 0 0) = true := by
  decide +kernel
/-- P2 row 12. -/
theorem test_rxStatus : runs { s0 with last_ts := 1006 } .rxStatus (.ok (.status ⟨0, 0, 1006⟩))
    (regs 0xFFFF 0 1006 0 0) = true := by decide +kernel

/-! ### Direction unit (V-DIR) -/

/-- V-DIR-2. -/
theorem test_dirTx : runs s0 .dirTx (.ok .unit) (fun t => regs 0xFFFF 0 0 0 1 t && t.dirOut == some 1) = true := by
  decide +kernel
/-- V-DIR-3. -/
theorem test_dirTx_absent : runs { s0 with cfg := ⟨4, 2, false⟩ } .dirTx (.ok .unit)
    (fun t => regs 0xFFFF 0 0 0 0 t && t.dirOut == none) = true := by decide +kernel
theorem test_dirRx : runs { s0 with dir := 1 } .dirRx (.ok .unit)
    (fun t => regs 0xFFFF 0 0 0 0 t && t.dirOut == some 0) = true := by decide +kernel
/-- V-DIR-5. -/
theorem test_rxByte_while_transmitting : runs { s0 with dir := 1 } (.rxByte 0x01 5) (.ok .unit)
    (regs 0xFFFF 1 5 0 1) = true := by decide +kernel

/-! ### Wire format and assembly (E5, E6, R101) -/

theorem test_exceptionFrame : exceptionFrame 0x01 0x03 .illegalDataAddress = [0x01, 0x83, 0x02, 0xC0, 0xF1] ∧
    exceptionFrame 0x01 0x07 .illegalFunction = [0x01, 0x87, 0x01, 0x82, 0x30] := by decide +kernel
theorem test_coilValue : toWire16 (coilValue true) = [0xFF, 0x00] ∧ coilOfValue 0x0001 = none := by decide
/-- E4: the slave's response; and the largest read, past which no byte is twice the count (R109). -/
theorem test_readResponse : readResponse 0x01 0x03 [1234] = some [0x01, 0x03, 0x02, 0x04, 0xD2, 0x3A, 0xD9] := by
  decide +kernel
theorem test_readResponse_largest :
    (readResponsePayload (List.replicate 127 0)).map (fun p => p.head?) = some (some 0xFE) ∧
    readResponsePayload (List.replicate 128 0) = none := by decide +kernel
theorem test_bitClr : (Pseudo.bitClr 3 16).operations.map Instr.words = [[0x20000003, 0x00000010]] := by decide
theorem test_assemble_w16From : (assembleLine (.w16From 0x04 0xD2)).map Instr.words = some [0x230400D2] := by decide
theorem test_assemble_error : assembleLine (.w16To 65536) = none := by decide

/-! ### Witnesses: every statement with hypotheses has values that meet them, clause by clause -/

theorem witness_DecodeOfEncode : (Instr.crcAppend (List.replicate 65535 0)).wellFormed = true := by
  rw [Instr.wellFormed, List.length_replicate]; decide

theorem witness_DecodedOperationReencodes : decode [0x13000001, 0x40000000] [0xFF, 0xFE] =
    .op (.crcCompute [0xFF]) [0x40000000] [0xFE] := by decide

/-- The ends of the five ranges of unassigned codes. -/
theorem witness_UnassignedOpcode :
    (0x00FFFFFF : U32).toNat / 2 ^ 24 ≤ 0x0F ∧ (0x0FFFFFFF : U32).toNat / 2 ^ 24 ≤ 0x0F ∧
    (0x16 ≤ (0x16000000 : U32).toNat / 2 ^ 24 ∧ (0x1FFFFFFF : U32).toNat / 2 ^ 24 ≤ 0x1F) ∧
    (0x24 ≤ (0x24000000 : U32).toNat / 2 ^ 24 ∧ (0x2FFFFFFF : U32).toNat / 2 ^ 24 ≤ 0x2F) ∧
    (0x33 ≤ (0x33000000 : U32).toNat / 2 ^ 24 ∧ (0x3FFFFFFF : U32).toNat / 2 ^ 24 ≤ 0x3F) ∧
    0x42 ≤ (0x42000000 : U32).toNat / 2 ^ 24 := by decide

/-- Operands at the ends of their fields, and one past each. -/
theorem witness_AssemblerLines : (255 ≤ 255 ∧ ¬ 256 ≤ 255) ∧
    (((∀ x ∈ [0, 255], x ≤ 255) ∧ [0, 255].length ≤ 65535) ∧
      ¬ ((∀ x ∈ [0, 256], x ≤ 255) ∧ [0, 256].length ≤ 65535)) ∧
    (((∀ x ∈ List.replicate 65535 0, x ≤ 255) ∧ (List.replicate 65535 0).length ≤ 65535) ∧
      ¬ ((∀ x ∈ List.replicate 65536 0, x ≤ 255) ∧ (List.replicate 65536 0).length ≤ 65535)) ∧
    ((65535 ≤ 65535 ∧ 1 ≤ 1 ∧ 4294967295 ≤ 2 ^ 32 - 1) ∧ ¬ (65535 ≤ 65535 ∧ 2 ≤ 1 ∧ 4294967295 ≤ 2 ^ 32 - 1) ∧
      ¬ (65535 ≤ 65535 ∧ 1 ≤ 1 ∧ 4294967296 ≤ 2 ^ 32 - 1) ∧ ¬ (65536 ≤ 65535 ∧ 1 ≤ 1 ∧ 0 ≤ 2 ^ 32 - 1)) := by
  refine ⟨by decide, by decide, ⟨⟨fun x hx => ?_, ?_⟩, fun h => ?_⟩, by decide⟩
  · rw [List.eq_of_mem_replicate hx]; decide
  · rw [List.length_replicate]
  · have := h.2
    rw [List.length_replicate] at this
    omega

/-- The row of BIT.PACK with an accepted word and with one that has the lowest reserved bit set. -/
theorem witness_AssignedOpcode : ((0x20000000, 0xFFFE0000, .f1) : U32 × U32 × Format) ∈ specTable ∧
    ([(16 : U32)].length, ([] : Bytes).length) = operandLengths .f1 0x20010009 ∧
    (0x20010009 : U32) >>> 24 = (0x20000000 : U32) >>> 24 ∧ (0x20010009 : U32) &&& 0xFFFE0000 = 0x20000000 ∧
    (0x20020000 : U32) >>> 24 = (0x20000000 : U32) >>> 24 ∧ (0x20020000 : U32) &&& 0xFFFE0000 ≠ 0x20000000 := by decide

/-- A row with data bytes, accepted and not. -/
theorem witness_AssignedOpcode_data : ((0x14000000, 0xFFFF0000, .f2) : U32 × U32 × Format) ∈ specTable ∧
    (([] : List U32).length, ([0xFF, 0xFF] : Bytes).length) = operandLengths .f2 0x14000002 ∧
    (0x14000002 : U32) &&& 0xFFFF0000 = 0x14000000 ∧ (0x14010002 : U32) &&& 0xFFFF0000 ≠ 0x14000000 := by decide

/-- A reserved bit of each operation; the index equal to the count; the first byte past the buffer. -/
theorem witness_BitOperationsCheck :
    ((0x20020000 : U32) >>> 24 = 0x20 ∧ (0x20020000 : U32) &&& 0x00FE0000 ≠ 0) ∧
    ((0x21010000 : U32) >>> 24 = 0x21 ∧ (0x21010000 : U32) &&& 0x00FF0000 ≠ 0) ∧
    ((0x20010010 : U32) &&& 0xFFFE0000 = 0x20000000 ∧ (16 : U32).toNat ≤ (0x20010010 : U32).toNat % 65536) ∧
    ((0x21000010 : U32) &&& 0xFFFF0000 = 0x21000000 ∧
      s0.cfg.cbufBytes.val ≤ (0x21000010 : U32).toNat % 65536 / 8) := by decide +kernel

theorem witness_StepRuns : decode (s0.issue (.bitPack 9 1 16)).cmd (s0.issue (.bitPack 9 1 16)).din =
    .op (.bitPack 9 1 16) [] [] := by decide

/-- An empty port; a missing operand word; one data byte too few. -/
theorem witness_StepWaits : s0.cmd = [] ∧
    (((0x20000000, 0xFFFE0000, .f1) : U32 × U32 × Format) ∈ specTable ∧
      (0x20010009 : U32) >>> 24 = (0x20000000 : U32) >>> 24) ∧
    (([0xFF] : Bytes).length < (0x14000002 : U32).toNat % 65536 ∧
      ((0x14000000, 0xFFFF0000, .f2) : U32 × U32 × Format) ∈ specTable ∧
      (0x14000002 : U32) >>> 24 = (0x14000000 : U32) >>> 24) := by decide

/-- A step that waits, and one that runs an operation. -/
theorem witness_EveryOperationGetsOneResponse : step s0 = .next s0 ∧
    step (s0.issue .dirRx) = .next (effect .dirRx s0) := ⟨rfl, rfl⟩

/-- A fault of the decoder, and BitIndexRange. -/
theorem witness_FaultingStep :
    (∃ t, step { s0 with cmd := [0x00000000] } = .next t ∧ t.res = s0.res ++ [.fault .illegalCommand 0]) ∧
    (∃ t, step (s0.issue (.bitPack 16 1 16)) = .next t ∧ t.res = s0.res ++ [.fault .bitIndexRange 0x20010010]) :=
  ⟨⟨_, rfl, rfl⟩, ⟨_, rfl, rfl⟩⟩

theorem witness_Histories : ∃ t, runEvents [.writeCbuf 1 0xFF, .input [0x40000000] [], .tick,
    .powerOn (Vector.replicate 256 0xFF)] s0 = .next t ∧ t.faultFree = true := ⟨_, rfl, rfl⟩

theorem witness_SteppingIssued : (∀ i ∈ [Instr.dirTx, .crcAppend [0x01], .rxPoll 5], i.wellFormed = true) ∧
    s0.cmd = [] ∧ s0.din = [] := by decide

theorem witness_ReceiveMode : ∃ t, applyEvent (.powerOn (Vector.replicate 256 0xFF)) { s0 with dir := 1 } = .next t ∧
    t.cfg.hasDir = true := ⟨_, rfl, rfl⟩

/-- A state with the buffer full, `ovf` set and a byte in the caller buffer meets the invariant and steps. -/
theorem witness_Invariant : State.Inv { withBuffer 0x01 0x80 with fill := 256, ovf := 1, dir := 1 } ∧
    ∃ t, step { withBuffer 0x01 0x80 with fill := 256, ovf := 1, dir := 1, cmd := [0x40000000] } = .next t :=
  ⟨⟨by decide, by decide, by decide, by decide, by decide⟩, ⟨_, rfl⟩⟩

theorem witness_Invariant_history : State.Inv s0 ∧
    ∃ t, runEvents [.writeCbuf 1 0xFF, .input [0x30010000, 7] [], .tick] s0 = .next t :=
  ⟨⟨by decide, by decide, by decide, by decide, by decide⟩, ⟨_, rfl⟩⟩

theorem witness_CrcVerify : ([0x12] : Bytes).length < 2 := by decide

theorem witness_StreamingEqualsCompute : s0.cmd = [] ∧ s0.din = [] := ⟨rfl, rfl⟩

theorem witness_ZeroResidue : 2 ≤ ([0xFF, 0xFF] : Bytes).length := by decide

theorem witness_AppendedFrameVerifies : (List.replicate 65533 (0xFF : Byte)).length ≤ 65533 := by
  rw [List.length_replicate]

/-- The first and the last bit of a body. -/
theorem witness_SingleBitError : (0 < ([0x01, 0x07] : Bytes).length ∧ 0 < 8) ∧
    (1 < ([0x01, 0x07] : Bytes).length ∧ 7 < 8) := by decide

theorem witness_StartedStreams : streamsStarted false [.dirTx, .crcInit, .crcUpdate 0x01, .crcRead] = true := by decide

/-- The last bit of the buffer; the premises of BIT.PACK and of BIT.READ. -/
theorem witness_BitPackReplaces : Memory.wf s0.cbuf = true ∧ (15 : U16).toNat < (16 : U32).toNat ∧
    (15 : U16).toNat / 8 < s0.cfg.cbufBytes.val := by decide

/-- A read after a pack, with a pack of the other byte between the two. -/
theorem witness_BitReadSeesTheLastPack : ∃ t u, Memory.wf s0.cbuf = true ∧ (15 : U16).toNat < (16 : U32).toNat ∧
    (15 : U16).toNat / 8 < s0.cfg.cbufBytes.val ∧ exec (.bitPack 15 1 16) s0 = .next t ∧
    (∀ i ∈ [Instr.bitPack 7 1 16, .dirTx], packsByte ((15 : U16).toNat / 8) i = false) ∧
    execAll [.bitPack 7 1 16, .dirTx] t = .next u :=
  ⟨_, _, rfl, by decide, by decide, exec_eq _ _, by decide, execAll_eq _ _⟩

/-- Two bits of one byte. -/
theorem witness_PacksCommute : Memory.wf s0.cbuf = true ∧ (8 : U16) ≠ 15 ∧ (8 : U16).toNat < (16 : U32).toNat ∧
    (8 : U16).toNat / 8 < s0.cfg.cbufBytes.val ∧ (15 : U16).toNat < (16 : U32).toNat ∧
    (15 : U16).toNat / 8 < s0.cfg.cbufBytes.val := by decide

theorem witness_SizedBuffer : bufferSized s0.cfg 9 = true ∧ bufferSized s0.cfg 16 = true ∧
    (15 : U16).toNat < (16 : U32).toNat := by decide

theorem witness_Idempotent : Memory.wf s0.cbuf = true ∧ readsOnly .rxStatus = true ∧
    exec (.bitPack 15 1 16) s0 = .next (effect (.bitPack 15 1 16) s0) ∧
    exec (.bitPack 15 1 16) (effect (.bitPack 15 1 16) s0) =
      .next (effect (.bitPack 15 1 16) (effect (.bitPack 15 1 16) s0)) := ⟨rfl, rfl, exec_eq _ _, exec_eq _ _⟩

/-- The last address that exists with the last bit of it, and the first that does not. -/
theorem witness_HostWrite : (Memory.wf s0.cbuf = true ∧ 1 < s0.cfg.cbufBytes.val ∧ (15 : U16).toNat / 8 = 1 ∧
    (15 : U16).toNat < (16 : U32).toNat) ∧ s0.cfg.cbufBytes.val ≤ 2 := by decide

/-- The last free entry, and the full buffer. -/
theorem witness_RxByte : (255 : U9).toNat < 256 ∧ 256 ≤ (256 : U9).toNat := by decide

/-- A silence of exactly T_IFD_MS; no byte held; a silence 1 ms below it. -/
theorem witness_RxPoll :
    (0 < (holding [0x55] 1000 0).fill.toNat ∧ (holding [0x55] 1000 0).cfg.tIfdMs.toNat ≤
      ((1004 : U32).toNat + 2 ^ 32 - (holding [0x55] 1000 0).last_ts.toNat) % 2 ^ 32) ∧
    s0.fill.toNat = 0 ∧
    ((1003 : U32).toNat + 2 ^ 32 - (holding [0x55] 1000 0).last_ts.toNat) % 2 ^ 32 <
      (holding [0x55] 1000 0).cfg.tIfdMs.toNat := by decide +kernel

theorem witness_OnlyRxByteWritesTheTimestamp : (∀ b ts, Instr.rxPoll 7 ≠ .rxByte b ts) ∧
    exec (.rxPoll 7) s0 = .next (effect (.rxPoll 7) s0) := ⟨by simp, exec_eq _ _⟩

/-- An index and another at the ends of the buffer; a delivery; an operation of another unit. -/
theorem witness_OnlyRxByteAndRxPollTouchTheBuffer : (255 : U9).toNat < 256 ∧ 0 ≠ (255 : U9).toNat ∧
    (effect (.rxPoll 1004) (holding [0x55] 1000 0)).lastResponse = some (.ok (.poll ⟨1, 0, [0x55]⟩)) ∧
    (∀ b ts, Instr.rxStatus ≠ .rxByte b ts) ∧ ∀ now, Instr.rxStatus ≠ .rxPoll now := by
  refine ⟨by decide, by decide, by decide +kernel, by simp, by simp⟩

/-- An empty assembler over two different buffers, each with a poll to run. -/
theorem witness_StaleBufferEntries : ∃ s' t', SameButStale (s0.issue (.rxPoll 9))
      { s0.issue (.rxPoll 9) with rxbuf := Vector.replicate 256 0xFF } ∧
    Host.Core.run core 1 (s0.issue (.rxPoll 9)) = .next s' ∧
    Host.Core.run core 1 { s0.issue (.rxPoll 9) with rxbuf := Vector.replicate 256 0xFF } = .next t' :=
  ⟨_, _, ⟨rfl, fun k hk _ => absurd hk (Nat.not_lt_zero k)⟩, rfl, rfl⟩

/-- A schedule for R210: two bursts with a poll 3 ms after the first, then a poll at exactly T_IFD_MS. -/
theorem witness_Framing : s0.fill = 0 ∧ s0.ovf = 0 ∧
    (receivedBytes [.rxByte 0x01 0, .rxPoll 3, .dirTx, .rxByte 0x03 3]).length ≤ 256 ∧
    silencesBelow s0.cfg.tIfdMs none [.rxByte 0x01 0, .rxPoll 3, .dirTx, .rxByte 0x03 3] = true ∧
    lastArrival none [.rxByte 0x01 0, .rxPoll 3, .dirTx, .rxByte 0x03 3] = some 3 ∧
    s0.cfg.tIfdMs.toNat ≤ ((7 : U32) - 3).toNat := by decide

/-- The largest frame, and the smallest number of bytes that overflows. -/
theorem witness_Framing_largest :
    (receivedBytes (List.replicate 256 (.rxByte 0x55 3))).length ≤ 256 ∧
    silencesBelow s0.cfg.tIfdMs none (List.replicate 256 (.rxByte 0x55 3)) = true ∧
    lastArrival none (List.replicate 256 (.rxByte 0x55 3)) = some 3 := by decide +kernel

theorem witness_Overflow : s0.fill = 0 ∧ s0.ovf = 0 ∧
    256 < (receivedBytes (List.replicate 257 (.rxByte 0x55 3))).length ∧
    silencesBelow s0.cfg.tIfdMs none (List.replicate 257 (.rxByte 0x55 3)) = true ∧
    lastArrival none (List.replicate 257 (.rxByte 0x55 3)) = some 3 ∧
    s0.cfg.tIfdMs.toNat ≤ ((7 : U32) - 3).toNat := by decide +kernel

/-- V-RX-8 and V-RX-9: bytes held, the silence passed, another byte and a poll T_IFD_MS after it; and the same with
room for one byte only. -/
theorem witness_UnpolledSilence : (holding [0x11, 0x22] 1 0).complete 5 = true ∧
    (holding [0x11, 0x22] 1 0).cfg.tIfdMs.toNat ≤ ((10 : U32) - 6).toNat ∧
    (holding [0x11, 0x22] 1 0).fill.toNat < 256 ∧
    State.complete { s0 with fill := 255, last_ts := 1 } 5 = true ∧ (255 : U9).toNat < 256 := by decide +kernel

/-- A poll across the clock wrap, and polls 1 ms and a whole wrap but 1 ms before the last byte's timestamp. -/
theorem witness_PollMeasuresTheSilence : 0 < (holding [0xAA] 0xFFFFFFFE 0).fill.toNat ∧
    PollNotEarly (holding [0xAA] 0xFFFFFFFE 0) 2 4294967294 4294967298 ∧
    ((1000 : U32) = 999 + BitVec.ofNat 32 1 ∧ 0 < 1 ∧ 1 < 2 ^ 32) ∧
    ((999 : U32) = 1000 + BitVec.ofNat 32 4294967295 ∧ 0 < 4294967295 ∧ 4294967295 < 2 ^ 32) :=
  ⟨by decide, ⟨by decide, by decide, by decide, by decide⟩, by decide, by decide⟩

theorem witness_DirectionOperations : s0.cfg.hasDir = true ∧
    State.cfg { s0 with cfg := ⟨4, 2, false⟩ } = ⟨4, 2, false⟩ := ⟨rfl, rfl⟩

theorem witness_WithoutTheLine : ∃ t, (⟨4, 2, false⟩ : Config).hasDir = false ∧ s0.dir = 0 ∧
    execAll [.dirTx, .dirRx, .dirTx] { s0 with cfg := ⟨4, 2, false⟩ } = .next t := ⟨_, rfl, rfl, execAll_eq _ _⟩

theorem witness_ReadOnly : readsOnly (.bitRead 15 16) = true ∧
    exec (.bitRead 15 16) s0 = .next (effect (.bitRead 15 16) s0) := ⟨rfl, exec_eq _ _⟩

theorem witness_RegisterOperations : exec .dirTx s0 = .next (effect .dirTx s0) ∧
    exec (.crcUpdate 0x01) s0 = .next (effect (.crcUpdate 0x01) s0) := ⟨exec_eq _ _, exec_eq _ _⟩

theorem witness_BitPackStores : bitAddr s0.cfg 15 16 = some (1, 7) ∧
    exec (.bitPack 15 1 16) s0 = .next (effect (.bitPack 15 1 16) s0) := ⟨by decide, exec_eq _ _⟩

/-- A byte that is stored, a byte that is dropped, a poll that clears `fill` and `ovf`, and an operation that is no
RX.BYTE. -/
theorem witness_AssemblerOperations : unitOf (.rxByte 0xAA 5) = .assembler ∧
    (effect (.rxByte 0xAA 5) s0).rxbuf[0] ≠ s0.rxbuf[0] ∧
    (effect (.rxByte 0xAA 5) { s0 with fill := 256 }).ovf ≠ s0.ovf ∧
    (effect (.rxPoll 9) { s0 with fill := 256, ovf := 1 }).ovf ≠ 1 ∧
    (effect (.rxByte 0xAA 5) s0).fill ≠ s0.fill ∧
    (effect (.rxPoll 9) { s0 with fill := 256, ovf := 1 }).fill ≠ 256 ∧
    unitOf .rxStatus = .assembler ∧ Instr.rxStatus ≠ .rxByte 0xAA 5 := by decide +kernel

theorem witness_UnitsDoNotInterfere : ∃ t, execAll [.dirTx, .rxByte 0x01 5, .crcUpdate 0x01, .bitPack 15 1 16] s0 =
    .next t := ⟨_, execAll_eq _ _⟩

end Sys2Proof.Tests
end

/-! SUPPORT. The settled statements of 00_scope.md: what a step is, what histories keep, and that the units do not
interfere. -/

namespace Sys2Proof.Machine

/-! ### The step, one equation for each answer of the decoder -/

theorem step_of_waiting {s : State} (h : decode s.cmd s.din = .waiting) : step s = .next s := by
  simp only [step, h]

theorem step_of_rejected {s : State} {code : FaultCode} {w0 : U32} {cmd : List U32} {din : Bytes}
    (h : decode s.cmd s.din = .rejected code w0 cmd din) :
    step s = .next ((s.consume cmd din).takeFault code w0) := by
  simp only [step, h]

theorem step_of_op {s : State} {i : Instr} {cmd : List U32} {din : Bytes} (h : decode s.cmd s.din = .op i cmd din) :
    step s = exec i (s.consume cmd din) := by
  simp only [step, h]

/-- Settles O8: the decoder's answer selects the `exec` branch, and `consume` replaces the two streams only. -/
theorem stepRunsTheDecodedOperation : Obligations.StepRunsTheDecodedOperation :=
  fun _ _ _ _ h => step_of_op h

/-- Settles O10: each of the decoder's three answers leads to a next state, since every operation has an effect. -/
theorem everyStepAnswersANextState : Obligations.EveryStepAnswersANextState := by
  intro s
  cases h : decode s.cmd s.din with
  | waiting => exact ⟨s, step_of_waiting h⟩
  | rejected code w0 cmd din => exact ⟨_, step_of_rejected h⟩
  | op i cmd din => exact ⟨effect i (s.consume cmd din), (step_of_op h).trans (exec_eq _ _)⟩

/-! ### What a history keeps -/

/-- `t` may follow `s` in a history: the same parameters, and every response given in `s` still given, in its place. -/
structure State.Extends (s t : State) : Prop where
  cfg_eq : t.cfg = s.cfg
  res_prefix : s.res <+: t.res

namespace State.Extends

theorem refl (s : State) : s.Extends s := ⟨rfl, List.prefix_rfl⟩

theorem trans {s t u : State} (h : s.Extends t) (h' : t.Extends u) : s.Extends u :=
  ⟨h'.cfg_eq.trans h.cfg_eq, h.res_prefix.trans h'.res_prefix⟩

/-- A later state without fault responses has none earlier (60_exceptions.md R262). -/
theorem faultFree {s t : State} (h : s.Extends t) (ht : t.faultFree = true) : s.faultFree = true := by
  rw [State.faultFree, List.all_eq_true] at ht ⊢
  exact fun r hr => ht r (h.res_prefix.subset hr)

end State.Extends

theorem effect_extends (i : Instr) (s : State) : s.Extends (effect i s) := by
  obtain ⟨r, hr⟩ := effect_res i s
  exact ⟨effect_cfg i s, hr ▸ List.prefix_append _ _⟩

theorem step_extends {s t : State} (h : step s = .next t) : s.Extends t := by
  cases step_cases h with
  | waiting => exact .refl s
  | rejected code w0 cmd din => exact ⟨rfl, List.prefix_append _ _⟩
  | op i cmd din =>
    have consumed : s.Extends (s.consume cmd din) := ⟨rfl, List.prefix_rfl⟩
    exact consumed.trans (effect_extends i _)

theorem applyEvent_extends {e : Event} {s t : State} (h : applyEvent e s = .next t) : s.Extends t := by
  cases e with
  | input words bytes =>
    obtain rfl := Host.Outcome.next.inj h
    exact ⟨rfl, List.prefix_rfl⟩
  | writeCbuf a v =>
    simp only [applyEvent] at h
    split at h
    · obtain rfl := Host.Outcome.next.inj h
      exact ⟨rfl, List.prefix_rfl⟩
    · cases h
  | powerOn rxbuf =>
    obtain rfl := Host.Outcome.next.inj h
    exact ⟨rfl, List.prefix_rfl⟩
  | tick => exact step_extends h

/-- A history that answers a state took its first event to some state and its rest from there. -/
theorem runEvents_cons {e : Event} {es : List Event} {s t : State} (h : runEvents (e :: es) s = .next t) :
    ∃ u, applyEvent e s = .next u ∧ runEvents es u = .next t := by
  simp only [runEvents] at h
  split at h
  · next u hu => exact ⟨u, hu, h⟩
  · cases h
  · cases h

theorem runEvents_extends {es : List Event} {s t : State} (h : runEvents es s = .next t) : s.Extends t := by
  induction es generalizing s with
  | nil =>
    obtain rfl := Host.Outcome.next.inj h
    exact .refl s
  | cons e es ih =>
    obtain ⟨u, hu, ht⟩ := runEvents_cons h
    exact (applyEvent_extends hu).trans (ih ht)

/-- Settles O13: every event keeps the parameters and extends the responses, so by induction every history does; the
faults of the earlier state are among those of the later one. -/
theorem historiesKeepParametersAndResponses : Obligations.HistoriesKeepParametersAndResponses := by
  intro es s t h
  have ext := runEvents_extends h
  exact ⟨ext.cfg_eq, ext.res_prefix, ext.faultFree⟩

/-! ### The four units -/

/-- Two states agree on the state of one unit, and on the parameters it reads. -/
def SameUnit : LinkUnit → State → State → Prop
  | .crc, s, t => s.crc = t.crc
  | .codec, s, t => s.cfg = t.cfg ∧ s.cbuf = t.cbuf
  | .assembler, s, t => s.cfg = t.cfg ∧ s.fill = t.fill ∧ s.last_ts = t.last_ts ∧ s.ovf = t.ovf ∧ s.rxbuf = t.rxbuf
  | .direction, s, t => s.cfg = t.cfg ∧ s.dir = t.dir

theorem SameUnit.refl (u : LinkUnit) (s : State) : SameUnit u s s := by
  cases u <;> simp [SameUnit]

/-- An operation of another unit leaves a unit's state as it is. -/
theorem SameUnit.effect_other {u : LinkUnit} {i : Instr} {s t : State} (hi : unitOf i ≠ u) (h : SameUnit u s t) :
    SameUnit u s (effect i t) := by
  cases u with
  | crc => simpa [SameUnit, effect_crc hi] using h
  | codec => simpa [SameUnit, effect_cbuf hi] using h
  | assembler =>
    obtain ⟨hfill, hts, hovf, hbuf⟩ := effect_assembler hi t
    simpa [SameUnit, hfill, hts, hovf, hbuf] using h
  | direction => simpa [SameUnit, effect_dir hi] using h

/-- What a CRC operation does to `crc` depends on `crc` alone. -/
theorem effect_crc_congr {i : Instr} {s t : State} (hi : unitOf i = .crc) (h : s.crc = t.crc) :
    (effect i s).crc = (effect i t).crc := by
  match i, hi with
  | .crcInit, _ => rfl
  | .crcUpdate b, _ => simp [effect, h]
  | .crcRead, _ | .crcCompute _, _ | .crcVerify _, _ | .crcAppend _, _ => exact h

/-- What a codec operation does to the caller buffer depends on that buffer and its size alone. -/
theorem effect_cbuf_congr {i : Instr} {s t : State} (hi : unitOf i = .codec) (hcfg : s.cfg = t.cfg)
    (h : s.cbuf = t.cbuf) : (effect i s).cbuf = (effect i t).cbuf := by
  match i, hi with
  | .bitPack idx v nbits, _ =>
    simp only [effect, hcfg]
    split
    · exact h
    · simp [h, State.memRead_congr h]
  | .bitRead idx nbits, _ =>
    simp only [effect, hcfg]
    split <;> exact h
  | .w16To _, _ | .w16From _ _, _ => exact h

/-- What a direction operation does to `dir` depends on `dir` and the presence of the line alone. -/
theorem effect_dir_congr {i : Instr} {s t : State} (hi : unitOf i = .direction) (hcfg : s.cfg = t.cfg)
    (h : s.dir = t.dir) : (effect i s).dir = (effect i t).dir := by
  match i, hi with
  | .dirTx, _ => simp [effect, hcfg, h]
  | .dirRx, _ => rfl

/-- What an assembler operation does to the assembler depends on the assembler and the inter-frame delay alone; the
direction in particular is not read (43_direction.md R245). -/
theorem SameUnit.effect_own_assembler {i : Instr} {s t : State} (hi : unitOf i = .assembler)
    (h : SameUnit .assembler s t) : SameUnit .assembler (effect i s) (effect i t) := by
  obtain ⟨hcfg, hfill, hts, hovf, hbuf⟩ := h
  match i, hi with
  | .rxByte b ts, _ =>
    have room : s.hasRoom = t.hasRoom := by simp [State.hasRoom, hfill]
    simp [effect, SameUnit, State.ovfAfterByte, room, hcfg, hfill, hovf, hbuf]
  | .rxPoll now, _ =>
    have silence : s.complete now = t.complete now := State.complete_congr t now hcfg hfill hts
    simp only [effect, silence]
    split
    · simp [SameUnit, State.ovfAfterPoll, silence, hcfg, hts, hovf, hbuf]
    · exact ⟨hcfg, hfill, hts, hovf, hbuf⟩
  | .rxStatus, _ => exact ⟨hcfg, hfill, hts, hovf, hbuf⟩

/-- What an operation does to its own unit depends on that unit alone. -/
theorem SameUnit.effect_own {i : Instr} {s t : State} (h : SameUnit (unitOf i) s t) :
    SameUnit (unitOf i) (effect i s) (effect i t) := by
  cases hu : unitOf i with
  | crc => exact effect_crc_congr hu (hu ▸ h : SameUnit .crc s t)
  | codec =>
    obtain ⟨hcfg, hbuf⟩ : SameUnit .codec s t := hu ▸ h
    exact ⟨by simpa using hcfg, effect_cbuf_congr hu hcfg hbuf⟩
  | assembler => exact SameUnit.effect_own_assembler hu (hu ▸ h)
  | direction =>
    obtain ⟨hcfg, hdir⟩ : SameUnit .direction s t := hu ▸ h
    exact ⟨by simpa using hcfg, effect_dir_congr hu hcfg hdir⟩

/-- A unit's operations alone, and the whole list, keep two states agreeing on that unit. -/
theorem SameUnit.effects_onlyUnit {u : LinkUnit} (ops : List Instr) {s t : State} (h : SameUnit u s t) :
    SameUnit u (effects (onlyUnit u ops) s) (effects ops t) := by
  induction ops generalizing s t with
  | nil => exact h
  | cons i ops ih =>
    by_cases hi : unitOf i = u
    · subst hi
      simpa [onlyUnit] using ih h.effect_own
    · simpa [onlyUnit, hi] using ih (h.effect_other hi)

/-- Settles O58: each unit's own operations act on that unit alone and the others leave it as it is, so dropping the
others from the list changes nothing of the unit. -/
theorem unitsDoNotInterfere : Obligations.UnitsDoNotInterfere := by
  intro ops s t h
  obtain rfl := execAll_next h
  have same (u : LinkUnit) : SameUnit u (effects (onlyUnit u ops) s) (effects ops s) :=
    (SameUnit.refl u s).effects_onlyUnit ops
  obtain ⟨-, codec⟩ := same .codec
  obtain ⟨-, assembler⟩ := same .assembler
  obtain ⟨-, direction⟩ := same .direction
  exact ⟨⟨_, execAll_eq _ _, same .crc⟩, ⟨_, execAll_eq _ _, codec⟩, ⟨_, execAll_eq _ _, assembler⟩,
    ⟨_, execAll_eq _ _, direction⟩⟩

end Sys2Proof.Machine

/-! SUPPORT. The settled statements of 10_state.md: issued operations run in order, a step's one response, the reset
values, the invariant, the timestamp, and the frames of the register operations and of the stale buffer entries. -/

namespace Sys2Proof

/-! ### What the encoder writes, the decoder reads (30_encoding.md R94 to R96) -/

/-- Every operation's word 0 names its row and has no reserved bit: the laws of Laws/PerInstr.lean together. -/
theorem Instr.encodesLegally (i : Instr) : Laws.EncodesLegally.Statement i := by
  cases i with
  | crcInit => exact Laws.EncodesLegally.crcInit
  | crcUpdate b => exact Laws.EncodesLegally.crcUpdate b
  | crcRead => exact Laws.EncodesLegally.crcRead
  | crcCompute bytes => exact Laws.EncodesLegally.crcCompute bytes
  | crcVerify frame => exact Laws.EncodesLegally.crcVerify frame
  | crcAppend bytes => exact Laws.EncodesLegally.crcAppend bytes
  | bitPack idx v nbits => exact Laws.EncodesLegally.bitPack idx v nbits
  | bitRead idx nbits => exact Laws.EncodesLegally.bitRead idx nbits
  | w16To value => exact Laws.EncodesLegally.w16To value
  | w16From hi lo => exact Laws.EncodesLegally.w16From hi lo
  | rxByte b ts => exact Laws.EncodesLegally.rxByte b ts
  | rxPoll now => exact Laws.EncodesLegally.rxPoll now
  | rxStatus => exact Laws.EncodesLegally.rxStatus
  | dirTx => exact Laws.EncodesLegally.dirTx
  | dirRx => exact Laws.EncodesLegally.dirRx

/-- The count field of an F2 operation holds the length of a sequence it can carry (R93). -/
theorem takeOperands_f2_counted {bytes : Bytes} (h : bytes.length ≤ maxData) (cmd : List U32) (din : Bytes) :
    takeOperands .f2 (BitVec.ofNat 16 bytes.length).toNat cmd (bytes ++ din) = some ⟨0, bytes, cmd, din⟩ := by
  rw [BitVec.toNat_ofNat, Nat.mod_eq_of_lt (by simp only [maxData] at h; omega)]
  exact takeOperands_f2 bytes cmd din

/-- The decoder takes exactly the operand word and the data bytes the encoder wrote. -/
theorem takeOperands_encode {i : Instr} (h : i.wellFormed = true) (cmd : List U32) (din : Bytes) :
    takeOperands i.opcode.row.format (b16Field i.word0).toNat (i.operandWords ++ cmd) (i.data ++ din) =
      some ⟨i.operandWords.headD 0, i.data, cmd, din⟩ := by
  match i, h with
  | .crcCompute bytes, h | .crcVerify bytes, h | .crcAppend bytes, h =>
    rw [Instr.word0, b16Field_mkWord0]
    exact takeOperands_f2_counted (of_decide_eq_true h) cmd din
  | .bitPack _ _ _, _ | .bitRead _ _, _ | .rxByte _ _, _ | .rxPoll _, _ => rfl
  | .crcInit, _ | .crcUpdate _, _ | .crcRead, _ | .w16To _, _ | .w16From _ _, _ | .rxStatus, _ | .dirTx, _
  | .dirRx, _ => rfl

/-- The decoder assembles the operands the encoder laid out (R95). -/
theorem assemble_encode (i : Instr) : i.opcode.assemble i.word0 (i.operandWords.headD 0) i.data = i := by
  cases i <;>
    simp [Instr.opcode, Opcode.assemble, Instr.word0, Instr.operandWords, Instr.data, Instr.a8, Instr.b16]

/-- The decoder reads back an encoded operation, whatever follows it on the two streams. -/
theorem decode_encode {i : Instr} (h : i.wellFormed = true) (cmd : List U32) (din : Bytes) :
    decode (i.words ++ cmd) (i.data ++ din) = .op i cmd din := by
  obtain ⟨hcode, hres⟩ := i.encodesLegally
  rw [Instr.words, List.cons_append, decode_cons]
  simp only [hcode, takeOperands_encode h, hres, if_true, assemble_encode]

/-! ### Incomplete operations (R42, R73) -/

/-- OPC is what is left of word 0 after a shift by 24. -/
theorem opcField_congr {w m : U32} (h : w >>> 24 = m >>> 24) : opcField w = opcField m := by
  apply BitVec.eq_of_toNat_eq
  have htop := congrArg BitVec.toNat h
  simp only [BitVec.toNat_ushiftRight] at htop
  simp only [opcField, BitVec.extractLsb'_toNat, htop]

theorem b16Field_toNat (w : U32) : (b16Field w).toNat = w.toNat % 65536 := by
  simp [b16Field]

/-- Each code of the spec's table names an operation of the row's format. -/
theorem specTable_format : ∀ row ∈ specTable,
    (Opcode.ofCode (opcField row.1)).map (·.row.format) = some row.2.2 := by
  decide

/-- A word with a row's code names an operation of the row's format. -/
theorem ofCode_of_mem_specTable {w m k : U32} {f : Format} (hrow : (m, k, f) ∈ specTable)
    (hop : w >>> 24 = m >>> 24) : ∃ o, Opcode.ofCode (opcField w) = some o ∧ o.row.format = f := by
  have hmap : (Opcode.ofCode (opcField m)).map (·.row.format) = some f := specTable_format (m, k, f) hrow
  rw [opcField_congr hop]
  exact Option.map_eq_some_iff.1 hmap

/-- While an operation's operands have not all arrived the decoder waits. -/
theorem decode_waiting_of_takeOperands {w0 : U32} {rest : List U32} {din : Bytes} {o : Opcode}
    (hcode : Opcode.ofCode (opcField w0) = some o)
    (htake : takeOperands o.row.format (b16Field w0).toNat rest din = none) : decode (w0 :: rest) din = .waiting := by
  rw [decode_cons]
  simp only [hcode, htake]

end Sys2Proof

namespace Sys2Proof.Machine

/-! ### Running operations off the ports (R42, R75) -/

theorem State.assertTransmit_of_line {s : State} (h : s.cfg.hasDir = true) : s.assertTransmit = { s with dir := 1 } :=
  if_pos h

theorem State.assertTransmit_of_no_line {s : State} (h : ¬ s.cfg.hasDir = true) : s.assertTransmit = s :=
  if_neg h

theorem State.assertTransmit_consume (s : State) (cmd : List U32) (din : Bytes) :
    (s.consume cmd din).assertTransmit = s.assertTransmit.consume cmd din := by
  by_cases line : s.cfg.hasDir = true
  · rw [State.assertTransmit_of_line line, State.assertTransmit_of_line (s := s.consume cmd din) line]
    rfl
  · rw [State.assertTransmit_of_no_line line, State.assertTransmit_of_no_line (s := s.consume cmd din) line]

/-- No operation reads the two streams, so replacing them before it or after it is the same. -/
theorem effect_consume (i : Instr) (s : State) (cmd : List U32) (din : Bytes) :
    effect i (s.consume cmd din) = (effect i s).consume cmd din := by
  match i with
  | .bitPack idx v nbits | .bitRead idx nbits =>
    simp only [effect, State.consume_cfg]
    split <;> rfl
  | .rxByte b ts =>
    have room : (s.consume cmd din).hasRoom = s.hasRoom := rfl
    apply State.ext_fields <;> simp [effect, State.ovfAfterByte, room]
  | .rxPoll now =>
    have silence : (s.consume cmd din).complete now = s.complete now := rfl
    simp only [effect, State.ovfAfterPoll, silence]
    split <;> rfl
  | .dirTx => exact congrArg (·.ok .unit) (State.assertTransmit_consume s cmd din)
  | .crcInit | .crcUpdate _ | .crcRead | .crcCompute _ | .crcVerify _ | .crcAppend _ | .w16To _ | .w16From _ _
  | .rxStatus | .dirRx => rfl

theorem effects_consume (ops : List Instr) (s : State) (cmd : List U32) (din : Bytes) :
    effects ops (s.consume cmd din) = (effects ops s).consume cmd din := by
  induction ops generalizing s with
  | nil => rfl
  | cons i ops ih => rw [effects_cons, effect_consume, ih, effects_cons]

/-- Issuing a list of operations puts their words and their bytes on the two streams, in order. -/
theorem issueAll_eq (ops : List Instr) (s : State) :
    s.issueAll ops = s.input (ops.flatMap Instr.words) (ops.flatMap Instr.data) := by
  induction ops generalizing s with
  | nil => simp [State.issueAll, State.input]
  | cons i ops ih =>
    rw [State.issueAll, List.foldl_cons]
    refine (ih (s.issue i)).trans ?_
    simp [State.issue, State.input, encode]

/-- A step on an issued operation runs it and leaves the streams behind it. -/
theorem step_of_issued {i : Instr} (h : i.wellFormed = true) (s : State) (cmd : List U32) (din : Bytes) :
    step (s.consume (i.words ++ cmd) (i.data ++ din)) = .next ((effect i s).consume cmd din) := by
  rw [step_of_op (decode_encode h cmd din), exec_eq, ← effect_consume]
  rfl

theorem run_succ {s t : State} (h : step s = .next t) (n : Nat) :
    Host.Core.run core (n + 1) s = Host.Core.run core n t := by
  have hcore : core.step s = .next t := h
  simp only [Host.Core.run, hcore]

/-- One step for each operation on the streams runs them all and empties the streams. -/
theorem run_issued (ops : List Instr) (s : State) (h : ∀ i ∈ ops, i.wellFormed = true) :
    Host.Core.run core ops.length (s.consume (ops.flatMap Instr.words) (ops.flatMap Instr.data)) =
      .next ((effects ops s).consume [] []) := by
  induction ops generalizing s with
  | nil => rfl
  | cons i ops ih =>
    obtain ⟨hi, hops⟩ := List.forall_mem_cons.1 h
    exact (run_succ (step_of_issued hi s _ _) ops.length).trans (ih (effect i s) hops)

/-- Settles O14: the decoder reads each issued operation back, no operation reads the streams, so by induction over the
list the steps run the operations one after the other. -/
theorem steppingIssuedOperationsRunsThemInOrder : Obligations.SteppingIssuedOperationsRunsThemInOrder := by
  intro ops s hops hcmd hdin
  have hempty : s.consume [] [] = s := by rw [← hcmd, ← hdin]; rfl
  have hissued : s.issueAll ops = s.consume (ops.flatMap Instr.words) (ops.flatMap Instr.data) := by
    rw [issueAll_eq, State.input, hcmd, hdin]; rfl
  rw [hissued, run_issued ops s hops, ← effects_consume, hempty, execAll_eq]
  rfl

/-! ### The invariant (R34, R36, R37, R61) -/

/-- The count goes up only while there is room, and `ovf` is set only on a byte without room (R34, R36). -/
theorem effect_keeps_fill_bounds {i : Instr} {s : State} (h : s.Inv) :
    (effect i s).fill.toNat ≤ 256 ∧ ((effect i s).ovf = 1 → (effect i s).fill.toNat = 256) := by
  have hle := h.fill_le
  by_cases hunit : unitOf i = .assembler
  · match i, hunit with
    | .rxByte b ts, _ =>
      by_cases room : s.hasRoom = true
      · have hlt := State.hasRoom_iff.1 room
        have hfill : (effect (.rxByte b ts) s).fill.toNat = s.fill.toNat + 1 := by
          simp [effect, room]; omega
        have hovf : (effect (.rxByte b ts) s).ovf = s.ovf := by simp [effect, State.ovfAfterByte, room]
        rw [hfill, hovf]
        exact ⟨hlt, fun hset => by have := h.ovf_full hset; omega⟩
      · have hge : ¬ s.fill.toNat < 256 := mt State.hasRoom_iff.2 room
        have hfill : (effect (.rxByte b ts) s).fill = s.fill := by simp [effect, room]
        rw [hfill]
        exact ⟨hle, fun _ => by omega⟩
    | .rxPoll now, _ =>
      simp only [effect]
      split
      · next silence => simp [State.ovfAfterPoll, silence]
      · exact ⟨hle, h.ovf_full⟩
    | .rxStatus, _ => exact ⟨hle, h.ovf_full⟩
  · obtain ⟨hfill, -, hovf, -⟩ := effect_assembler hunit s
    rw [hfill, hovf]
    exact ⟨hle, h.ovf_full⟩

/-- Without the direction line no operation takes `dir` from 0 (R37). -/
theorem effect_keeps_dir_absent {i : Instr} {s : State} (hline : s.cfg.hasDir = false) (h : s.dir = 0) :
    (effect i s).dir = 0 := by
  by_cases hunit : unitOf i = .direction
  · match i, hunit with
    | .dirTx, _ => simpa [effect, hline] using h
    | .dirRx, _ => rfl
  · exact (effect_dir hunit s).trans h

/-- An operation leaves the caller buffer as it is or writes one byte of it, at an address that exists (R61, R62). -/
theorem effect_cbuf_cases (i : Instr) (s : State) :
    (effect i s).cbuf = s.cbuf ∨
      ∃ a v, a < s.cfg.cbufBytes.val ∧ (effect i s).cbuf = Memory.write s.cbuf a v := by
  by_cases hunit : unitOf i = .codec
  · match i, hunit with
    | .bitPack idx v nbits, _ =>
      simp only [effect]
      split
      · exact .inl rfl
      · next a p hat =>
        obtain ⟨-, hrange, rfl, -⟩ := bitAddr_eq_some.1 hat
        exact .inr ⟨_, _, hrange, rfl⟩
    | .bitRead idx nbits, _ =>
      simp only [effect]
      split <;> exact .inl rfl
    | .w16To _, _ | .w16From _ _, _ => exact .inl rfl
  · exact .inl (effect_cbuf hunit s)

/-- A write to an address that exists keeps the caller buffer's two conditions (R61). -/
theorem State.Inv.memWrite {s : State} (h : s.Inv) {a : Nat} (v : Byte) (ha : a < s.cfg.cbufBytes.val) :
    (s.memWrite a v).Inv where
  fill_le := h.fill_le
  dir_absent := h.dir_absent
  ovf_full := h.ovf_full
  cbuf_wf := Memory.wf_write a v h.cbuf_wf
  cbuf_range c hc := by
    rcases Memory.mem_write hc with hc | rfl
    · exact h.cbuf_range c hc
    · exact ha

/-- Every operation keeps the invariant: the assembler's part, the direction's and the caller buffer's. -/
theorem State.Inv.effect {s : State} (h : s.Inv) (i : Instr) : (effect i s).Inv := by
  obtain ⟨hfill, hovf⟩ := effect_keeps_fill_bounds (i := i) h
  have hdir (hline : (Machine.effect i s).cfg.hasDir = false) : (Machine.effect i s).dir = 0 := by
    rw [effect_cfg] at hline
    exact effect_keeps_dir_absent hline (h.dir_absent hline)
  obtain ⟨hwf, hrange⟩ : Memory.wf (Machine.effect i s).cbuf = true ∧
      ∀ c ∈ (Machine.effect i s).cbuf, c.1 < s.cfg.cbufBytes.val := by
    rcases effect_cbuf_cases i s with hsame | ⟨a, v, ha, hwrite⟩
    · rw [hsame]
      exact ⟨h.cbuf_wf, h.cbuf_range⟩
    · rw [hwrite]
      have hw := h.memWrite v ha
      exact ⟨hw.cbuf_wf, hw.cbuf_range⟩
  exact ⟨hfill, hdir, hovf, hwf, by simpa using hrange⟩

/-- The invariant does not speak of the ports. -/
theorem State.Inv.consume {s : State} (h : s.Inv) (cmd : List U32) (din : Bytes) : (s.consume cmd din).Inv :=
  ⟨h.fill_le, h.dir_absent, h.ovf_full, h.cbuf_wf, h.cbuf_range⟩

theorem State.Inv.takeFault {s : State} (h : s.Inv) (code : FaultCode) (w0 : U32) : (s.takeFault code w0).Inv :=
  ⟨h.fill_le, h.dir_absent, h.ovf_full, h.cbuf_wf, h.cbuf_range⟩

theorem State.Inv.input {s : State} (h : s.Inv) (words : List U32) (bytes : Bytes) : (s.input words bytes).Inv :=
  ⟨h.fill_le, h.dir_absent, h.ovf_full, h.cbuf_wf, h.cbuf_range⟩

/-- Power-on gives the registers their reset values and keeps the caller buffer (R290). -/
theorem State.Inv.powerOn {s : State} (h : s.Inv) (rxbuf : Vector Byte 256) : (s.powerOn rxbuf).Inv where
  fill_le := by simp [State.powerOn, State.reset]
  dir_absent _ := rfl
  ovf_full hset := by simp [State.powerOn, State.reset] at hset
  cbuf_wf := h.cbuf_wf
  cbuf_range := h.cbuf_range

/-- Settles O18: each of the three ways a step ends keeps the invariant. -/
theorem everyStepKeepsTheInvariant : Obligations.EveryStepKeepsTheInvariant := by
  intro s t h hstep
  cases step_cases hstep with
  | waiting => exact h
  | rejected code w0 cmd din => exact (h.consume cmd din).takeFault code w0
  | op i cmd din => exact (h.consume cmd din).effect i

theorem applyEvent_keeps_inv {e : Event} {s t : State} (h : s.Inv) (he : applyEvent e s = .next t) : t.Inv := by
  cases e with
  | input words bytes =>
    obtain rfl := Host.Outcome.next.inj he
    exact h.input words bytes
  | writeCbuf a v =>
    simp only [applyEvent] at he
    split at he
    · next ha =>
      obtain rfl := Host.Outcome.next.inj he
      exact h.memWrite v ha
    · cases he
  | powerOn rxbuf =>
    obtain rfl := Host.Outcome.next.inj he
    exact h.powerOn rxbuf
  | tick => exact everyStepKeepsTheInvariant s t h he

/-- Settles O19: by induction over the history, each event keeping the invariant. -/
theorem everyHistoryKeepsTheInvariant : Obligations.EveryHistoryKeepsTheInvariant := by
  intro es
  induction es with
  | nil =>
    intro s t h hrun
    obtain rfl := Host.Outcome.next.inj hrun
    exact h
  | cons e es ih =>
    intro s t h hrun
    obtain ⟨u, he, hes⟩ := runEvents_cons hrun
    exact ih u t (applyEvent_keeps_inv h he) hes

/-- Settles O17: at reset the assembler and the caller buffer are empty and the flags are 0. -/
theorem invariantHoldsAtReset : Obligations.InvariantHoldsAtReset where
  fill_le := by simp [State.reset]
  dir_absent _ := rfl
  ovf_full hset := by simp [State.reset] at hset
  cbuf_wf := rfl
  cbuf_range := by simp [State.reset]

/-! ### Buffer entries at or above `fill` (R38, R41 (b)) -/

/-- Operations but RX.BYTE and RX.POLL neither read nor write the buffer (20_memory.md R63). -/
theorem effect_rxbuf_frame {i : Instr} (hbyte : ∀ b ts, i ≠ .rxByte b ts) (hpoll : ∀ now, i ≠ .rxPoll now)
    (s : State) (buf : Vector Byte 256) : effect i { s with rxbuf := buf } = { effect i s with rxbuf := buf } := by
  match i, hbyte, hpoll with
  | .rxByte b ts, hbyte, _ => exact absurd rfl (hbyte b ts)
  | .rxPoll now, _, hpoll => exact absurd rfl (hpoll now)
  | .bitPack idx v nbits, _, _ | .bitRead idx nbits, _, _ =>
    simp only [effect]
    split <;> rfl
  | .dirTx, _, _ =>
    simp only [effect, State.assertTransmit]
    split <;> rfl
  | .crcInit, _, _ | .crcUpdate _, _, _ | .crcRead, _, _ | .crcCompute _, _, _ | .crcVerify _, _, _
  | .crcAppend _, _, _ | .w16To _, _, _ | .w16From _ _, _, _ | .rxStatus, _, _ | .dirRx, _, _ => rfl

/-- Nor do they change how many bytes are held. -/
theorem effect_fill_rxbuf {i : Instr} (hbyte : ∀ b ts, i ≠ .rxByte b ts) (hpoll : ∀ now, i ≠ .rxPoll now)
    (s : State) : (effect i s).fill = s.fill ∧ (effect i s).rxbuf = s.rxbuf := by
  by_cases hunit : unitOf i = .assembler
  · match i, hunit, hbyte, hpoll with
    | .rxByte b ts, _, hbyte, _ => exact absurd rfl (hbyte b ts)
    | .rxPoll now, _, _, hpoll => exact absurd rfl (hpoll now)
    | .rxStatus, _, _, _ => exact ⟨rfl, rfl⟩
  · obtain ⟨hfill, -, -, hbuf⟩ := effect_assembler hunit s
    exact ⟨hfill, hbuf⟩

namespace SameButStale

variable {s t : State}

/-- The second state is the first with another buffer, the same in every held entry. -/
theorem exists_rxbuf (h : SameButStale s t) : ∃ buf : Vector Byte 256, t = { s with rxbuf := buf } ∧
    ∀ k : Nat, k < s.fill.toNat → ∀ h : k < 256, buf[k] = s.rxbuf[k] :=
  ⟨t.rxbuf, h.rest, h.held⟩

theorem res_eq (h : SameButStale s t) : t.res = s.res := by rw [h.rest]

/-- The bytes a poll delivers are held bytes. -/
theorem frame_eq (h : SameButStale s t) : t.frame = s.frame := by
  obtain ⟨buf, rfl, held⟩ := h.exists_rxbuf
  refine List.ext_getElem (by simp [State.frame]) fun k hk _ => ?_
  simp only [State.frame, List.length_take, Vector.length_toList, lt_min_iff] at hk
  simpa [State.frame] using held k hk.1 hk.2

theorem consume (h : SameButStale s t) (cmd : List U32) (din : Bytes) :
    SameButStale (s.consume cmd din) (t.consume cmd din) :=
  ⟨by rw [h.rest]; rfl, h.held⟩

theorem takeFault (h : SameButStale s t) (code : FaultCode) (w0 : U32) :
    SameButStale (s.takeFault code w0) (t.takeFault code w0) :=
  ⟨by rw [h.rest]; rfl, h.held⟩

/-- RX.BYTE with room writes the first stale entry, which then is held and equal in both states. -/
theorem effect_rxByte (h : SameButStale s t) (b : Byte) (ts : U32) :
    SameButStale (effect (.rxByte b ts) s) (effect (.rxByte b ts) t) := by
  obtain ⟨buf, rfl, held⟩ := h.exists_rxbuf
  have sameRoom : State.hasRoom { s with rxbuf := buf } = s.hasRoom := rfl
  constructor
  · apply State.ext_fields <;> simp [effect, State.ovfAfterByte, sameRoom]
  · intro k hk hlt
    by_cases room : s.hasRoom = true
    · have hroom := State.hasRoom_iff.1 room
      have hle : k ≤ s.fill.toNat := by
        simp [effect, room] at hk
        omega
      rcases Nat.lt_or_eq_of_le hle with hheld | rfl
      · simpa [effect, sameRoom, room, Vector.getElem_setIfInBounds, Nat.ne_of_gt hheld] using held k hheld hlt
      · simp [effect, sameRoom, room]
    · have hheld : k < s.fill.toNat := by simpa [effect, room] using hk
      simpa [effect, sameRoom, room] using held k hheld hlt

/-- RX.POLL answers held bytes only; after a delivery none is held. -/
theorem effect_rxPoll (h : SameButStale s t) (now : U32) :
    SameButStale (effect (.rxPoll now) s) (effect (.rxPoll now) t) := by
  have sameFrame := h.frame_eq
  obtain ⟨buf, rfl, held⟩ := h.exists_rxbuf
  have silence : State.complete { s with rxbuf := buf } now = s.complete now := rfl
  simp only [effect, silence, sameFrame]
  split
  · exact ⟨rfl, fun k hk _ => absurd hk (Nat.not_lt_zero k)⟩
  · exact ⟨rfl, held⟩

/-- Every operation keeps the relation: only RX.BYTE and RX.POLL touch the buffer. -/
theorem effect (h : SameButStale s t) (i : Instr) : SameButStale (effect i s) (effect i t) := by
  by_cases hbyte : ∃ b ts, i = .rxByte b ts
  · obtain ⟨b, ts, rfl⟩ := hbyte
    exact h.effect_rxByte b ts
  by_cases hpoll : ∃ now, i = .rxPoll now
  · obtain ⟨now, rfl⟩ := hpoll
    exact h.effect_rxPoll now
  push Not at hbyte hpoll
  obtain ⟨buf, rfl, held⟩ := h.exists_rxbuf
  obtain ⟨hfill, hbuf⟩ := effect_fill_rxbuf hbyte hpoll s
  rw [effect_rxbuf_frame hbyte hpoll s buf]
  refine ⟨rfl, fun k hk hlt => ?_⟩
  rw [hfill] at hk
  simpa only [hbuf] using held k hk hlt

theorem step (h : SameButStale s t) {s' t' : State} (hs : step s = .next s') (ht : step t = .next t') :
    SameButStale s' t' := by
  have samePorts : decode t.cmd t.din = decode s.cmd s.din := by rw [h.rest]
  cases step_cases hs with
  | waiting hd =>
    obtain rfl := Host.Outcome.next.inj ((step_of_waiting (samePorts.trans hd)).symm.trans ht)
    exact h
  | rejected code w0 cmd din hd =>
    obtain rfl := Host.Outcome.next.inj ((step_of_rejected (samePorts.trans hd)).symm.trans ht)
    exact (h.consume cmd din).takeFault code w0
  | op i cmd din hd =>
    obtain rfl := exec_next ((step_of_op (samePorts.trans hd)).symm.trans ht)
    exact (h.consume cmd din).effect i

end SameButStale

/-- A run of at least one step takes one step and runs on from there. -/
theorem run_succ_next {n : Nat} {s t : State} (h : Host.Core.run core (n + 1) s = .next t) :
    ∃ u : State, step s = .next u ∧ Host.Core.run core n u = .next t := by
  obtain ⟨u, hu⟩ := everyStepAnswersANextState s
  exact ⟨u, hu, (run_succ hu n).symm.trans h⟩

/-- Settles O47: by induction over the steps; each keeps the relation, under which the responses are the same. -/
theorem staleBufferEntriesAreUnobservable : Obligations.StaleBufferEntriesAreUnobservable := by
  intro n
  induction n with
  | zero =>
    intro s t s' t' h hs ht
    obtain rfl := Host.Outcome.next.inj hs
    obtain rfl := Host.Outcome.next.inj ht
    exact ⟨h, h.res_eq⟩
  | succ n ih =>
    intro s t s' t' h hs ht
    obtain ⟨u, hsu, hus⟩ := run_succ_next hs
    obtain ⟨v, htv, hvt⟩ := run_succ_next ht
    exact ih u v s' t' (h.step hsu htv) hus hvt

/-! ### Responses and waiting (R42, R45, R73) -/

/-- Settles O11: of the three ways a step ends only waiting gives no response. -/
theorem everyOperationGetsOneResponse : Obligations.EveryOperationGetsOneResponse := by
  intro s t h
  cases step_cases h with
  | waiting hd => exact .inl ⟨hd, rfl⟩
  | rejected code w0 cmd din hd => exact .inr ⟨by simp [hd], _, rfl⟩
  | op i cmd din hd => exact .inr ⟨by simp [hd], effect_res i _⟩

/-- Settles O9: the decoder waits for the first word, for word 1 and for the data bytes. -/
theorem stepWaitsForAnIncompleteOperation : Obligations.StepWaitsForAnIncompleteOperation := by
  intro s h
  apply step_of_waiting
  rcases h with hcmd | ⟨w0, hcmd, m, k, hrow, hop⟩ | ⟨w0, rest, hcmd, hshort, m, k, hrow, hop⟩
  · rw [hcmd]
    rfl
  · obtain ⟨o, hcode, hformat⟩ := ofCode_of_mem_specTable hrow hop
    rw [hcmd]
    exact decode_waiting_of_takeOperands hcode (by rw [hformat]; rfl)
  · obtain ⟨o, hcode, hformat⟩ := ofCode_of_mem_specTable hrow hop
    have hfew : ¬ (b16Field w0).toNat ≤ s.din.length := by rw [b16Field_toNat]; omega
    rw [hcmd]
    exact decode_waiting_of_takeOperands hcode (by rw [hformat]; exact if_neg hfew)

/-! ### Reset (R50, R290) -/

/-- Settles O15: both resets write the values themselves. -/
theorem resetLeavesTheSpecifiedValues : Obligations.ResetLeavesTheSpecifiedValues := by
  refine ⟨⟨rfl, rfl, rfl, rfl, rfl⟩, fun s rxbuf => ⟨s.powerOn rxbuf, rfl, ?_⟩⟩
  exact ⟨rfl, rfl, rfl, rfl, rfl, rfl, rfl, fun _ => rfl, rfl⟩

/-! ### The timestamp (R35) -/

/-- No operation but RX.BYTE writes `last_ts`. -/
theorem effect_last_ts {i : Instr} (h : ∀ b ts, i ≠ .rxByte b ts) (s : State) :
    (effect i s).last_ts = s.last_ts := by
  by_cases hunit : unitOf i = .assembler
  · match i, hunit, h with
    | .rxByte b ts, _, h => exact absurd rfl (h b ts)
    | .rxPoll now, _, _ =>
      simp only [effect]
      split <;> rfl
    | .rxStatus, _, _ => rfl
  · exact (effect_assembler hunit s).2.1

/-- RX.POLL answers ready exactly when the frame is complete (42_assembler.md R203). -/
theorem rxPoll_ready_iff (now : U32) (s : State) :
    (∃ o f, (effect (.rxPoll now) s).lastResponse = some (.ok (.poll ⟨1, o, f⟩))) ↔ s.complete now = true := by
  by_cases silence : s.complete now = true
  · simp [effect, silence]
  · simp [effect, silence]

/-- Settles O45: one case for each operation the rule names, and the frame for the others. -/
theorem onlyRxByteWritesTheTimestamp : Obligations.OnlyRxByteWritesTheTimestamp := by
  intro s
  refine ⟨fun b ts => ⟨_, exec_eq _ _, rfl⟩, fun now => ⟨_, exec_eq _ _, ?_, ?_⟩, ?_, fun i t hi h => ?_⟩
  · exact effect_last_ts (by simp) s
  · exact (rxPoll_ready_iff now s).trans State.complete_iff
  · exact ⟨_, s.fill, s.ovf, exec_eq _ _, State.ok_lastResponse _ _⟩
  · obtain rfl := exec_next h
    exact effect_last_ts hi s

/-! ### Frames of the register operations (R33, R37) -/

/-- Settles O55: the effect of each of the four operations is its register's write with the response. -/
theorem registerOperationsWriteTheirRegisterOnly : Obligations.RegisterOperationsWriteTheirRegisterOnly := by
  intro i s t h
  obtain rfl := exec_next h
  constructor
  · rintro (rfl | ⟨b, rfl⟩) <;> exact ⟨rfl, fun _ => rfl⟩
  · rintro (rfl | rfl)
    · exact ⟨by apply State.ext_fields <;> simp [effect], State.memRead_congr (effect_cbuf (by simp [unitOf]) s)⟩
    · exact ⟨rfl, fun _ => rfl⟩

end Sys2Proof.Machine

/-! SUPPORT. The settled statements of 20_memory.md: the byte orders of DOUT, the read-only and the idempotent
operations, host writes to the caller buffer, and who touches the assembler's buffer. -/

namespace Sys2Proof.Machine

/-! ### The byte orders on DOUT (R64, R65) -/

/-- The bytes of an Ok response leave on DOUT. -/
theorem State.ok_dout (s : State) (v : Value) : (s.ok v).dout = s.dout ++ (Response.ok v).outBytes :=
  s.respond_dout (.ok v)

/-- Settles O25: the trailer is the checksum's low byte, then its high byte. -/
theorem crcAppendSendsTheTrailerLowByteFirst : Obligations.CrcAppendSendsTheTrailerLowByteFirst := by
  intro s bytes
  refine ⟨(crc16 bytes).extractLsb' 0 8, (crc16 bytes).extractLsb' 8 8, _, exec_eq _ s, rfl, ?_,
    lowByte_toNat _, highByte_toNat _⟩
  rw [List.append_assoc]
  exact s.ok_dout _

/-- Settles O34: the wire pair is the value's high byte, then its low byte. -/
theorem w16ToSendsTheHighByteFirst : Obligations.W16ToSendsTheHighByteFirst := by
  intro s value
  exact ⟨value.extractLsb' 8 8, value.extractLsb' 0 8, _, exec_eq _ s, rfl, s.ok_dout _,
    highByte_toNat value, lowByte_toNat value⟩

/-! ### Read-only operations (R72) -/

/-- A read-only operation only responds, and its response does not depend on the responses before it. -/
theorem effect_readsOnly {i : Instr} (h : readsOnly i = true) (s : State) :
    ∃ r, effect i s = s.respond r ∧ ∀ r', effect i (s.respond r') = (s.respond r').respond r := by
  match i, h with
  | .bitRead idx nbits, _ =>
    simp only [effect, State.respond_cfg]
    split
    · exact ⟨_, rfl, fun _ => rfl⟩
    · exact ⟨_, rfl, fun _ => rfl⟩
  | .crcRead, _ | .crcCompute _, _ | .crcVerify _, _ | .crcAppend _, _ | .w16To _, _ | .w16From _ _, _
  | .rxStatus, _ => exact ⟨_, rfl, fun _ => rfl⟩

/-- Settles O54: a response is all a read-only operation adds to the state. -/
theorem readOnlyOperationsWriteNothing : Obligations.ReadOnlyOperationsWriteNothing := by
  intro i s t h ht
  obtain rfl := exec_next ht
  obtain ⟨r, hr, -⟩ := effect_readsOnly h s
  rw [hr]
  exact ⟨rfl, ⟨r, rfl⟩, fun _ => rfl⟩

/-! ### Idempotent operations (R72) -/

/-- Run twice on `s`, the operation gives one response twice, and the second run changes nothing else. -/
def RepeatsWithoutEffect (i : Instr) (s : State) : Prop :=
  ∃ r, (effect i s).res = s.res ++ [r] ∧ effect i (effect i s) = (effect i s).respond r

theorem repeatsWithoutEffect_of_readsOnly {i : Instr} (h : readsOnly i = true) (s : State) :
    RepeatsWithoutEffect i s := by
  obtain ⟨r, hr, again⟩ := effect_readsOnly h s
  exact ⟨r, by rw [hr]; rfl, by rw [hr]; exact again r⟩

theorem repeatsWithoutEffect_dirTx (s : State) : RepeatsWithoutEffect .dirTx s := by
  refine ⟨.ok .unit, by simp [effect], ?_⟩
  cases hline : s.cfg.hasDir <;> apply State.ext_fields <;> simp [effect, hline]

/-- Writing to an address the byte it holds changes nothing. -/
theorem Memory.write_read_self {m : Memory} (a : Nat) (h : wf m = true) : write m a (read m a) = m := by
  refine ext_of_read (wf_write a _ h) h fun x => ?_
  by_cases hx : x = a
  · rw [hx, read_write_same a _ h]
  · exact read_write_other _ hx

theorem State.memWrite_memRead_self {s : State} (a : Nat) (h : Memory.wf s.cbuf = true) :
    s.memWrite a (s.memRead a) = s := by
  rw [State.memWrite, State.memRead, Memory.write_read_self a h]

/-- Packing the same bit again gives the same byte. -/
theorem packBit_packBit (old : Byte) (p : Nat) (v : U1) : packBit (packBit old p v) p v = packBit old p v := by
  refine BitVec.eq_of_getLsbD_eq fun k hk => ?_
  rw [packBit_getLsbD _ v hk, packBit_getLsbD old v hk]
  split <;> rfl

/-- BIT.PACK with its bounds check failed (R171). -/
theorem effect_bitPack_of_none {s : State} {idx : U16} {nbits : U32} (h : bitAddr s.cfg idx nbits = none) (v : U1) :
    effect (.bitPack idx v nbits) s = s.takeFault .bitIndexRange (Instr.word0 (.bitPack idx v nbits)) := by
  simp only [effect, h]

/-- BIT.PACK with its bounds check passed (R171). -/
theorem effect_bitPack_of_some {s : State} {idx : U16} {nbits : U32} {a p : Nat}
    (h : bitAddr s.cfg idx nbits = some (a, p)) (v : U1) :
    effect (.bitPack idx v nbits) s = (s.memWrite a (packBit (s.memRead a) p v)).ok .unit := by
  simp only [effect, h]

/-- The second BIT.PACK faults as the first did, or stores the byte that stands there. -/
theorem repeatsWithoutEffect_bitPack {s : State} (hwf : Memory.wf s.cbuf = true) (idx : U16) (v : U1) (nbits : U32) :
    RepeatsWithoutEffect (.bitPack idx v nbits) s := by
  cases hat : bitAddr s.cfg idx nbits with
  | none =>
    have first := effect_bitPack_of_none hat v
    exact ⟨_, by rw [first]; rfl, effect_bitPack_of_none (by rwa [effect_cfg]) v⟩
  | some place =>
    obtain ⟨a, p⟩ := place
    have first := effect_bitPack_of_some hat v
    refine ⟨.ok .unit, by rw [first]; rfl, ?_⟩
    rw [effect_bitPack_of_some (by rwa [effect_cfg]) v, first]
    generalize ht : (s.memWrite a (packBit (s.memRead a) p v)).ok .unit = t
    have hread : t.memRead a = packBit (s.memRead a) p v := by
      rw [← ht]
      exact State.memRead_memWrite_same a _ hwf
    have htwf : Memory.wf t.cbuf = true := by
      rw [← ht]
      exact Memory.wf_write a _ hwf
    have same : packBit (t.memRead a) p v = t.memRead a := by rw [hread, packBit_packBit]
    rw [same, State.memWrite_memRead_self a htwf]
    rfl

/-- Settles O40: the read-only operations write nothing, and each of the others writes what the first run left. -/
theorem idempotentOperationsRepeatWithoutEffect : Obligations.IdempotentOperationsRepeatWithoutEffect := by
  intro i s t u hwf hi ht hu
  obtain rfl := exec_next ht
  obtain rfl := exec_next hu
  have repeats : RepeatsWithoutEffect i s := by
    rcases hi with hread | rfl | rfl | rfl | ⟨idx, v, nbits, rfl⟩
    · exact repeatsWithoutEffect_of_readsOnly hread s
    · exact ⟨.ok .unit, rfl, rfl⟩
    · exact repeatsWithoutEffect_dirTx s
    · exact ⟨.ok .unit, rfl, rfl⟩
    · exact repeatsWithoutEffect_bitPack hwf idx v nbits
  exact repeats

/-! ### Host writes (R71, R76) -/

/-- A host write to an address that exists is a memory write. -/
theorem applyEvent_writeCbuf_of_lt {s : State} {a : Nat} (h : a < s.cfg.cbufBytes.val) (v : Byte) :
    applyEvent (.writeCbuf a v) s = .next (s.memWrite a v) := if_pos h

/-- A host write to an address that does not exist stops the model (log 11). -/
theorem applyEvent_writeCbuf_of_le {s : State} {a : Nat} (h : s.cfg.cbufBytes.val ≤ a) (v : Byte) :
    applyEvent (.writeCbuf a v) s = .fault (.hostCbufAddress a) := if_neg (Nat.not_lt.2 h)

/-- BIT.READ with its bounds check passed answers the addressed bit (R172). -/
theorem effect_bitRead_inBounds {s : State} {idx : U16} {nbits : U32} (hidx : idx.toNat < nbits.toNat)
    (hbyte : idx.toNat / 8 < s.cfg.cbufBytes.val) :
    effect (.bitRead idx nbits) s =
      s.ok (.bit (if (s.memRead (idx.toNat / 8)).getLsbD (idx.toNat % 8) then 1 else 0)) := by
  have hat : bitAddr s.cfg idx nbits = some (idx.toNat / 8, idx.toNat % 8) :=
    bitAddr_eq_some.2 ⟨hidx, hbyte, rfl, rfl⟩
  simp only [effect, hat, readBit_eq]
  cases (s.memRead (idx.toNat / 8)).getLsbD (idx.toNat % 8) <;> rfl

/-- Settles O41: the write changes the one byte, which BIT.READ then reads. -/
theorem hostWriteIsSeenByBitRead : Obligations.HostWriteIsSeenByBitRead := by
  intro s a v
  refine ⟨fun hwf ha => ⟨s.memWrite a v, applyEvent_writeCbuf_of_lt ha v, ?_, ?_⟩,
    fun ha => applyEvent_writeCbuf_of_le ha v⟩
  · exact fun x hx => State.memRead_memWrite_other v hx
  · rintro idx nbits rfl hidx
    rw [exec_eq, effect_bitRead_inBounds (s := s.memWrite _ v) hidx ha, State.memRead_memWrite_same _ v hwf]
    rfl

/-! ### The assembler's buffer (R63, R38) -/

/-- RX.BYTE with room writes the entry at `fill`. -/
theorem effect_rxByte_rxbuf_fill {s : State} (b : Byte) (ts : U32) (h : s.fill.toNat < 256) :
    (effect (.rxByte b ts) s).rxbuf[s.fill.toNat] = b := by
  simp [effect, State.hasRoom_iff.2 h]

/-- RX.BYTE writes no other entry. -/
theorem effect_rxByte_rxbuf_other {s : State} (b : Byte) (ts : U32) {k : Nat} (hk : k < 256) (hne : k ≠ s.fill.toNat) :
    (effect (.rxByte b ts) s).rxbuf[k] = s.rxbuf[k] := by
  by_cases room : s.hasRoom = true
  · simp [effect, room, Ne.symm hne]
  · simp [effect, room]

theorem effect_rxPoll_rxbuf (now : U32) (s : State) : (effect (.rxPoll now) s).rxbuf = s.rxbuf := by
  simp only [effect]
  split <;> rfl

/-- A frame that RX.POLL delivers is the bytes held (R203). -/
theorem frame_of_rxPoll_ready {s : State} {now : U32} {o : U1} {f : Bytes}
    (h : (effect (.rxPoll now) s).lastResponse = some (.ok (.poll ⟨1, o, f⟩))) : f = s.frame := by
  have silence : s.complete now = true := (rxPoll_ready_iff now s).1 ⟨o, f, h⟩
  obtain ⟨-, hframe⟩ : s.ovf = o ∧ s.frame = f := by simpa [effect, silence] using h
  exact hframe.symm

theorem State.frame_length (s : State) : s.frame.length = min s.fill.toNat 256 := by
  simp [State.frame]

theorem State.frame_getElem? {s : State} {k : Nat} (hk : k < 256) (hheld : k < s.fill.toNat) :
    s.frame[k]? = some s.rxbuf[k] := by
  simp [State.frame, hk, hheld]

/-- Settles O46: RX.BYTE and RX.POLL by their own equations, the others by the frame of the buffer. -/
theorem onlyRxByteAndRxPollTouchTheBuffer : Obligations.OnlyRxByteAndRxPollTouchTheBuffer := by
  refine ⟨fun s b ts => ⟨_, exec_eq _ _, ?_, ?_⟩, fun s now => ⟨_, exec_eq _ _, effect_rxPoll_rxbuf now s, ?_⟩,
    fun i s buf hbyte hpoll => ⟨_, exec_eq _ _, ?_, ?_⟩⟩
  · exact effect_rxByte_rxbuf_fill b ts
  · exact fun k hk hne => effect_rxByte_rxbuf_other b ts hk hne
  · intro o f ready
    obtain rfl := frame_of_rxPoll_ready ready
    exact ⟨s.frame_length, fun k hk hheld => State.frame_getElem? hk hheld⟩
  · exact (effect_fill_rxbuf hbyte hpoll s).2
  · rw [exec_eq, effect_rxbuf_frame hbyte hpoll s buf]

end Sys2Proof.Machine

/-! SUPPORT. The settled statements of 30_encoding.md: the decoder and the encoder agree both ways, which words are
rejected and how, the assembler lines, and valid frames. -/

namespace Sys2Proof

/-! ### Decoding and encoding (R94 to R96) -/

/-- Settles O1: the encoder's word 0 names its row, and its operands are the ones the decoder takes. -/
theorem decodeOfEncodeGivesBackTheInstruction : Obligations.DecodeOfEncodeGivesBackTheInstruction :=
  fun _ h cmd din => decode_encode h cmd din

@[simp] theorem Opcode.opcode_assemble (o : Opcode) (w0 x32 : U32) (data : Bytes) :
    (o.assemble w0 x32 data).opcode = o := by
  cases o <;> rfl

/-- Only a row of format F1 has an operand word (R92). -/
theorem Opcode.operandWords_assemble (o : Opcode) (w0 x32 : U32) (data : Bytes) :
    (o.assemble w0 x32 data).operandWords = if o.row.format = .f1 then [x32] else [] := by
  cases o <;> rfl

/-- Only a row of format F2 has data bytes (R93). -/
theorem Opcode.data_assemble (o : Opcode) (w0 x32 : U32) (data : Bytes) :
    (o.assemble w0 x32 data).data = if o.row.format = .f2 then data else [] := by
  cases o <;> rfl

/-- The bits of A8 that the operands of a row do not hold are its reserved bits. -/
theorem Opcode.a8_assemble {o : Opcode} {w0 : U32} (h : a8Field w0 &&& o.row.reservedA8 = 0) (x32 : U32)
    (data : Bytes) : (o.assemble w0 x32 data).a8 = a8Field w0 := by
  cases o with
  | crcUpdate | w16From | rxByte => rfl
  | bitPack => exact setWidth_of_bit h
  | crcInit | crcRead | crcCompute | crcVerify | crcAppend | bitRead | w16To | rxPoll | rxStatus | dirTx | dirRx =>
    exact (and_allOnes8.symm.trans h).symm

/-- The bits of B16 that the operands of a row do not hold are its reserved bits. -/
theorem Opcode.b16_assemble {o : Opcode} {w0 : U32} (h : b16Field w0 &&& o.row.reservedB16 = 0) (x32 : U32)
    {data : Bytes} (hdata : o.row.format = .f2 → data.length = (b16Field w0).toNat) :
    (o.assemble w0 x32 data).b16 = b16Field w0 := by
  cases o with
  | bitPack | bitRead | w16To => rfl
  | w16From => exact setWidth_of_byte h
  | crcCompute | crcVerify | crcAppend =>
    change BitVec.ofNat 16 data.length = b16Field w0
    rw [hdata rfl, BitVec.ofNat_toNat, BitVec.setWidth_eq]
  | crcInit | crcUpdate | crcRead | rxByte | rxPoll | rxStatus | dirTx | dirRx =>
    exact (and_allOnes16.symm.trans h).symm

theorem Opcode.reservedClear_iff {o : Opcode} {w0 : U32} :
    o.reservedClear w0 = true ↔ a8Field w0 &&& o.row.reservedA8 = 0 ∧ b16Field w0 &&& o.row.reservedB16 = 0 := by
  simp [Opcode.reservedClear]

/-- An accepted word 0 is the word 0 of the operation assembled from it. -/
theorem Opcode.word0_assemble {o : Opcode} {w0 : U32} (hcode : o.row.code = opcField w0)
    (hres : o.reservedClear w0 = true) (x32 : U32) {data : Bytes}
    (hdata : o.row.format = .f2 → data.length = (b16Field w0).toNat) : (o.assemble w0 x32 data).word0 = w0 := by
  obtain ⟨ha8, hb16⟩ := Opcode.reservedClear_iff.1 hres
  rw [Instr.word0, opcode_assemble, a8_assemble ha8, b16_assemble hb16 x32 hdata, hcode, mkWord0_fields]

theorem Opcode.wellFormed_assemble {o : Opcode} (w0 x32 : U32) {data : Bytes}
    (hdata : o.row.format = .f2 → data.length ≤ maxData) : (o.assemble w0 x32 data).wellFormed = true := by
  cases o with
  | crcCompute | crcVerify | crcAppend => exact decide_eq_true (hdata rfl)
  | crcInit | crcUpdate | crcRead | bitPack | bitRead | w16To | w16From | rxByte | rxPoll | rxStatus | dirTx | dirRx =>
    rfl

/-- The streams are the operation's operand words and data bytes, and what is left of them. -/
theorem Opcode.streams_of_takeOperands {o : Opcode} {w0 : U32} {rest : List U32} {din : Bytes} {r : Operands}
    (h : takeOperands o.row.format (b16Field w0).toNat rest din = some r) :
    rest = (o.assemble w0 r.x32 r.data).operandWords ++ r.cmd ∧ din = (o.assemble w0 r.x32 r.data).data ++ r.din ∧
      (o.row.format = .f2 → r.data.length = (b16Field w0).toNat) := by
  rw [operandWords_assemble, data_assemble]
  generalize o.row.format = f at h ⊢
  have htake := takeOperands_eq_some h
  cases f with
  | f0 =>
    obtain rfl : r = ⟨0, [], rest, din⟩ := htake
    simp
  | f1 =>
    obtain ⟨hcmd, -, hdin⟩ := htake
    simp [hcmd, hdin]
  | f2 =>
    obtain ⟨-, hcmd, -, hcount, hdin⟩ := htake
    simp [hcmd, hcount, ← hdin]

/-- Settles O2: an accepted word 0 has no reserved bit, so every bit of it is in an operand. -/
theorem decodedOperationReencodesToItsStreams : Obligations.DecodedOperationReencodesToItsStreams := by
  intro cmd cmd' din din' i h
  have hcase := decode_cases cmd din
  rw [h] at hcase
  cases hcase with
  | op w0 rest o r hcmd hcode htake hres =>
    obtain ⟨hwords, hbytes, hcount⟩ := Opcode.streams_of_takeOperands htake
    refine ⟨Opcode.wellFormed_assemble w0 r.x32 fun hf => ?_, ?_, hbytes⟩
    · have := (b16Field w0).isLt
      rw [hcount hf, maxData]
      omega
    · rw [hcmd, encode, Instr.words, Opcode.word0_assemble hcode hres r.x32 hcount, List.cons_append, ← hwords]

/-- Settles O3: eight runs of the decoder on closed streams. -/
theorem specWordsDecodeToTheirOperations : Obligations.SpecWordsDecodeToTheirOperations := by
  refine ⟨?_, ?_, ?_, ?_, ?_, ?_, ?_, ?_⟩ <;> decide

/-! ### Unassigned codes (R97) -/

theorem opcField_toNat (w : U32) : (opcField w).toNat = w.toNat / 2 ^ 24 := by
  have := w.isLt
  simp only [opcField, BitVec.extractLsb'_toNat, Nat.shiftRight_eq_div_pow]
  omega

theorem a8Field_toNat (w : U32) : (a8Field w).toNat = w.toNat / 2 ^ 16 % 2 ^ 8 := by
  simp [a8Field, BitVec.extractLsb'_toNat, Nat.shiftRight_eq_div_pow]

/-- The four ranges of assigned codes (R96). -/
theorem Opcode.code_range (o : Opcode) :
    (0x10 ≤ o.row.code.toNat ∧ o.row.code.toNat ≤ 0x15) ∨ (0x20 ≤ o.row.code.toNat ∧ o.row.code.toNat ≤ 0x23) ∨
      (0x30 ≤ o.row.code.toNat ∧ o.row.code.toNat ≤ 0x32) ∨ (0x40 ≤ o.row.code.toNat ∧ o.row.code.toNat ≤ 0x41) := by
  cases o <;> decide

theorem decode_of_unassigned {w0 : U32} (h : ∀ o : Opcode, o.row.code ≠ opcField w0) (rest : List U32) (din : Bytes) :
    decode (w0 :: rest) din = .rejected .illegalCommand w0 rest din := by
  simp only [decode_cons, Opcode.ofCode_eq_none.2 h]

/-- Settles O4: the five ranges are what the ranges of assigned codes leave. -/
theorem unassignedOpcodeFaultsIllegalCommand : Obligations.UnassignedOpcodeFaultsIllegalCommand := by
  intro s w0 rest hcmd hrange
  have hfree : ∀ o : Opcode, o.row.code ≠ opcField w0 := by
    intro o ho
    have hassigned := o.code_range
    rw [ho, opcField_toNat] at hassigned
    omega
  exact Machine.step_of_rejected (by rw [hcmd]; exact decode_of_unassigned hfree rest s.din)

/-! ### Match and mask (R96, R97) -/

/-- The word 0 of a row with every operand bit 0: the row's match value. -/
def Opcode.pattern (o : Opcode) : U32 := mkWord0 o.row.code 0 0

/-- The bits of word 0 that a row fixes: its code and its reserved bits. -/
def Opcode.mask (o : Opcode) : U32 := mkWord0 0xFF o.row.reservedA8 o.row.reservedB16

/-- The spec's table holds match, mask and format of each row. -/
theorem specTable_eq : specTable = Opcode.all.map fun o => (o.pattern, o.mask, o.row.format) := by decide

theorem mkWord0_inj {o o' a a' : Byte} {b b' : U16} : mkWord0 o a b = mkWord0 o' a' b' ↔ o = o' ∧ a = a' ∧ b = b' := by
  constructor
  · intro h
    exact ⟨by simpa using congrArg opcField h, by simpa using congrArg a8Field h, by simpa using congrArg b16Field h⟩
  · rintro ⟨rfl, rfl, rfl⟩
    rfl

theorem mkWord0_and (o o' a a' : Byte) (b b' : U16) :
    mkWord0 o a b &&& mkWord0 o' a' b' = mkWord0 (o &&& o') (a &&& a') (b &&& b') := by
  have hhigh : (o ++ a) &&& (o' ++ a') = (o &&& o') ++ (a &&& a') := BitVec.and_append
  exact BitVec.and_append.trans (congrArg (· ++ (b &&& b')) hhigh)

/-- A word matches a row under its mask exactly when it has the row's code and no reserved bit. -/
theorem Opcode.matches_iff {o : Opcode} {w0 : U32} :
    w0 &&& o.mask = o.pattern ↔ o.row.code = opcField w0 ∧ o.reservedClear w0 = true := by
  have hfields : w0 &&& o.mask = mkWord0 (opcField w0) (a8Field w0 &&& o.row.reservedA8)
      (b16Field w0 &&& o.row.reservedB16) := by
    conv_lhs => rw [← mkWord0_fields w0, mask, mkWord0_and]
    exact congrArg (fun c => mkWord0 c _ _) and_allOnes8
  rw [hfields, pattern, mkWord0_inj, reservedClear_iff, eq_comm]

/-- A word that matches a row is accepted once its operands are there. -/
theorem decode_of_match {o : Opcode} {w0 : U32} {rest : List U32} {din : Bytes} {r : Operands}
    (h : w0 &&& o.mask = o.pattern) (htake : takeOperands o.row.format (b16Field w0).toNat rest din = some r) :
    decode (w0 :: rest) din = .op (o.assemble w0 r.x32 r.data) r.cmd r.din := by
  obtain ⟨hcode, hres⟩ := Opcode.matches_iff.1 h
  simp only [decode_cons, Opcode.ofCode_eq_some.2 hcode, htake, hres, if_true]

/-- A word with a row's code that does not match the row is rejected once its operands are there, and they go with
it (R94). -/
theorem decode_of_mismatch {o : Opcode} {w0 : U32} {rest : List U32} {din : Bytes} {r : Operands}
    (hcode : o.row.code = opcField w0) (h : w0 &&& o.mask ≠ o.pattern)
    (htake : takeOperands o.row.format (b16Field w0).toNat rest din = some r) :
    decode (w0 :: rest) din = .rejected .reservedField w0 r.cmd r.din := by
  have hres : ¬ o.reservedClear w0 = true := fun hclear => h (Opcode.matches_iff.2 ⟨hcode, hclear⟩)
  simp only [decode_cons, Opcode.ofCode_eq_some.2 hcode, htake, if_neg hres]

/-- The operand words and data bytes of the lengths that R91 to R94 give are taken whole. -/
theorem takeOperands_of_lengths {f : Format} {w0 : U32} {xs : List U32} {ds : Bytes}
    (h : (xs.length, ds.length) = operandLengths f w0) (cmd : List U32) (din : Bytes) :
    ∃ r, takeOperands f (b16Field w0).toNat (xs ++ cmd) (ds ++ din) = some r ∧ r.cmd = cmd ∧ r.din = din := by
  cases f with
  | f0 =>
    obtain ⟨hx, hd⟩ := Prod.mk.inj h
    obtain rfl := List.eq_nil_of_length_eq_zero hx
    obtain rfl := List.eq_nil_of_length_eq_zero hd
    exact ⟨_, rfl, rfl, rfl⟩
  | f1 =>
    obtain ⟨hx, hd⟩ := Prod.mk.inj h
    obtain ⟨x, rfl⟩ := List.length_eq_one_iff.1 hx
    obtain rfl := List.eq_nil_of_length_eq_zero hd
    exact ⟨_, rfl, rfl, rfl⟩
  | f2 =>
    obtain ⟨hx, hd⟩ := Prod.mk.inj h
    obtain rfl := List.eq_nil_of_length_eq_zero hx
    rw [b16Field_toNat, ← hd]
    exact ⟨_, takeOperands_f2 ds cmd din, rfl, rfl⟩

/-- The word 0 of a decoded operation is the word consumed. -/
theorem word0_of_decode {w0 : U32} {rest cmd : List U32} {din din' : Bytes} {i : Instr}
    (h : decode (w0 :: rest) din = .op i cmd din') : i.word0 = w0 := by
  obtain ⟨-, hwords, -⟩ := decodedOperationReencodesToItsStreams _ _ _ _ _ h
  exact (List.cons.inj hwords).1.symm

/-- Settles O5: a row of the table is match and mask of an operation, and the operands are taken whole either way. -/
theorem assignedOpcodeIsAcceptedOrFaultsReservedField :
    Obligations.AssignedOpcodeIsAcceptedOrFaultsReservedField := by
  intro m k f hrow s w0 xs cmd ds din hcmd hdin hlen hop
  rw [specTable_eq] at hrow
  obtain ⟨o, -, hrow⟩ := List.mem_map.1 hrow
  obtain ⟨rfl, rfl, rfl⟩ : o.pattern = m ∧ o.mask = k ∧ o.row.format = f := by simpa using hrow
  have hcode : o.row.code = opcField w0 := by rw [opcField_congr hop, Opcode.pattern, opcField_mkWord0]
  obtain ⟨r, htake, rfl, rfl⟩ := takeOperands_of_lengths hlen cmd din
  rw [List.cons_append] at hcmd
  constructor
  · intro hmatch
    have hdec := decode_of_match hmatch htake
    rw [hcmd, hdin]
    exact ⟨_, hdec, word0_of_decode hdec⟩
  · intro hmiss
    exact Machine.step_of_rejected (by rw [hcmd, hdin]; exact decode_of_mismatch hcode hmiss htake)

end Sys2Proof

namespace Sys2Proof.Machine

/-! ### BIT.PACK and BIT.READ: the reserved field, then the index (R98, 41_codec.md R170) -/

/-- BIT.READ with its bounds check failed (R172). -/
theorem effect_bitRead_of_none {s : State} {idx : U16} {nbits : U32} (h : bitAddr s.cfg idx nbits = none) :
    effect (.bitRead idx nbits) s = s.takeFault .bitIndexRange (Instr.word0 (.bitRead idx nbits)) := by
  simp only [effect, h]

/-- A word with a bit that a row fixes to 0 does not match the row. -/
theorem mismatch_of_reserved {w k m r : U32} (hk : k &&& r = r) (hm : m &&& r = 0) (h : w &&& r ≠ 0) :
    w &&& k ≠ m := by
  rintro rfl
  rw [BitVec.and_assoc, hk] at hm
  exact h hm

/-- An operation whose bounds check fails takes its fault with the word consumed (60_exceptions.md R261). -/
theorem step_of_indexFault {s : State} {i : Instr} {w0 : U32} {rest cmd : List U32} {din : Bytes}
    (hcmd : s.cmd = w0 :: rest) (hdec : decode (w0 :: rest) s.din = .op i cmd din)
    (heffect : effect i (s.consume cmd din) = (s.consume cmd din).takeFault .bitIndexRange i.word0) :
    step s = .next ((s.consume cmd din).takeFault .bitIndexRange w0) := by
  rw [step_of_op (hcmd ▸ hdec), exec_eq, heffect, word0_of_decode hdec]

/-- Settles O6: a reserved bit is a mismatch with the row, and a word that matches it reaches the bounds check. -/
theorem bitOperationsCheckReservedFieldThenIndex : Obligations.BitOperationsCheckReservedFieldThenIndex := by
  intro s w0 nbits cmd hcmd
  constructor
  · have hfault : ∀ m k : U32, (m, k, .f1) ∈ specTable → w0 >>> 24 = m >>> 24 → w0 &&& k ≠ m →
        step s = .next { s with cmd := cmd, res := s.res ++ [.fault .reservedField w0] } :=
      fun m k hrow hop => (assignedOpcodeIsAcceptedOrFaultsReservedField m k .f1 hrow s w0 [nbits] cmd [] s.din
        hcmd rfl rfl hop).2
    rintro (⟨hop, hres⟩ | ⟨hop, hres⟩)
    · exact hfault 0x20000000 0xFFFE0000 (by decide) hop (mismatch_of_reserved (by decide) (by decide) hres)
    · exact hfault 0x21000000 0xFFFF0000 (by decide) hop (mismatch_of_reserved (by decide) (by decide) hres)
  · intro hmatch hrange
    have hnone : bitAddr s.cfg (b16Field w0) nbits = none := bitAddr_eq_none.2 (by rwa [b16Field_toNat])
    rcases hmatch with hmatch | hmatch
    · exact step_of_indexFault hcmd (decode_of_match (o := .bitPack) hmatch rfl)
        (effect_bitPack_of_none (s := s.consume cmd s.din) hnone _)
    · exact step_of_indexFault hcmd (decode_of_match (o := .bitRead) hmatch rfl)
        (effect_bitRead_of_none (s := s.consume cmd s.din) hnone)

/-! ### Assembler lines (R100) -/

/-- An answer `a` is given under the condition `p` and none without it: how an operand, a byte list and a line are
checked. -/
def AnswersWhen {α : Type} (x : Option α) (p : Prop) (a : α) : Prop := ∀ v, x = some v ↔ p ∧ v = a

namespace AnswersWhen

variable {α β : Type} {x : Option α} {p q : Prop} {a : α}

theorem eq_some (h : AnswersWhen x p a) (hp : p) : x = some a := (h a).2 ⟨hp, rfl⟩

theorem eq_none (h : AnswersWhen x p a) (hp : ¬ p) : x = none :=
  Option.eq_none_iff_forall_ne_some.2 fun v hv => hp ((h v).1 hv).1

theorem map (h : AnswersWhen x p a) (f : α → β) : AnswersWhen (x.map f) p (f a) := by
  intro v
  rw [Option.map_eq_some_iff]
  constructor
  · rintro ⟨u, hu, rfl⟩
    obtain ⟨hp, rfl⟩ := (h u).1 hu
    exact ⟨hp, rfl⟩
  · rintro ⟨hp, rfl⟩
    exact ⟨a, h.eq_some hp, rfl⟩

/-- One check after another: both conditions. -/
theorem bind (h : AnswersWhen x p a) {f : α → Option β} {b : β} (hf : AnswersWhen (f a) q b) :
    AnswersWhen (x.bind f) (p ∧ q) b := by
  intro v
  rw [Option.bind_eq_some_iff]
  constructor
  · rintro ⟨u, hu, hv⟩
    obtain ⟨hp, rfl⟩ := (h u).1 hu
    obtain ⟨hq, rfl⟩ := (hf v).1 hv
    exact ⟨⟨hp, hq⟩, rfl⟩
  · rintro ⟨⟨hp, hq⟩, rfl⟩
    exact ⟨a, h.eq_some hp, hf.eq_some hq⟩

end AnswersWhen

theorem answersWhen_some {α : Type} (a : α) : AnswersWhen (some a) True a := by
  intro v
  rw [Option.some.injEq, true_and, eq_comm]

theorem answersWhen_ite {α : Type} (p : Prop) [Decidable p] (a : α) :
    AnswersWhen (if p then some a else none) p a := by
  intro v
  rw [Option.ite_none_right_eq_some, Option.some.injEq, eq_comm]

theorem operand_answersWhen (width n : Nat) :
    AnswersWhen (operand width n) (n ≤ 2 ^ width - 1) (BitVec.ofNat width n) := by
  have hfits : (n < 2 ^ width) = (n ≤ 2 ^ width - 1) := propext (Nat.lt_iff_le_pred (Nat.two_pow_pos width))
  exact hfits ▸ answersWhen_ite _ _

theorem mapM_operand_answersWhen (ns : List Nat) :
    AnswersWhen (ns.mapM (operand 8)) (∀ x ∈ ns, x ≤ 255) (ns.map (BitVec.ofNat 8)) := by
  induction ns with
  | nil => exact fun v => by simp [eq_comm]
  | cons n ns ih =>
    rw [List.mapM_cons, List.forall_mem_cons]
    simp only [bind_pure_comp]
    exact (operand_answersWhen 8 n).bind (ih.map (BitVec.ofNat 8 n :: ·))

theorem byteList_answersWhen (ns : List Nat) :
    AnswersWhen (byteList ns) ((∀ x ∈ ns, x ≤ 255) ∧ ns.length ≤ 65535) (ns.map (BitVec.ofNat 8)) := by
  intro bytes
  rw [byteList, Option.ite_none_right_eq_some, mapM_operand_answersWhen ns bytes, and_left_comm, and_assoc]

/-- Word 0 of an operation as a number: its code and its two fields side by side (R90). -/
theorem word0_eq_ofNat {i : Instr} {n : Nat}
    (h : n = i.opcode.row.code.toNat * 2 ^ 24 + i.a8.toNat * 2 ^ 16 + i.b16.toNat) : i.word0 = BitVec.ofNat 32 n := by
  have hcode := i.opcode.row.code.isLt
  have ha8 := i.a8.isLt
  have hb16 := i.b16.isLt
  rw [Instr.word0, ← mkWord0_fields (BitVec.ofNat 32 n), mkWord0_inj]
  refine ⟨?_, ?_, ?_⟩ <;> apply BitVec.eq_of_toNat_eq
  · rw [opcField_toNat, BitVec.toNat_ofNat]
    omega
  · rw [a8Field_toNat, BitVec.toNat_ofNat]
    omega
  · rw [b16Field_toNat, BitVec.toNat_ofNat]
    omega

/-- Every operand of a line fits its field (R100). -/
def AsmLine.Fits : AsmLine → Prop
  | .crcUpdate b => b ≤ 255
  | .crcCompute bytes | .crcVerify bytes | .crcAppend bytes => (∀ x ∈ bytes, x ≤ 255) ∧ bytes.length ≤ 65535
  | .bitPack idx v nbits => idx ≤ 65535 ∧ v ≤ 1 ∧ nbits ≤ 2 ^ 32 - 1
  | .bitRead idx nbits => idx ≤ 65535 ∧ nbits ≤ 2 ^ 32 - 1
  | .w16To value => value ≤ 65535
  | .w16From hi lo => hi ≤ 255 ∧ lo ≤ 255
  | .rxByte b ts => b ≤ 255 ∧ ts ≤ 2 ^ 32 - 1
  | .rxPoll now => now ≤ 2 ^ 32 - 1
  | .crcInit | .crcRead | .rxStatus | .dirTx | .dirRx => True

/-- The operation a line writes, its numbers cut to their fields. -/
def AsmLine.instr : AsmLine → Instr
  | .crcInit => .crcInit
  | .crcUpdate b => .crcUpdate (BitVec.ofNat 8 b)
  | .crcRead => .crcRead
  | .crcCompute bytes => .crcCompute (bytes.map (BitVec.ofNat 8))
  | .crcVerify bytes => .crcVerify (bytes.map (BitVec.ofNat 8))
  | .crcAppend bytes => .crcAppend (bytes.map (BitVec.ofNat 8))
  | .bitPack idx v nbits => .bitPack (BitVec.ofNat 16 idx) (BitVec.ofNat 1 v) (BitVec.ofNat 32 nbits)
  | .bitRead idx nbits => .bitRead (BitVec.ofNat 16 idx) (BitVec.ofNat 32 nbits)
  | .w16To value => .w16To (BitVec.ofNat 16 value)
  | .w16From hi lo => .w16From (BitVec.ofNat 8 hi) (BitVec.ofNat 8 lo)
  | .rxByte b ts => .rxByte (BitVec.ofNat 8 b) (BitVec.ofNat 32 ts)
  | .rxPoll now => .rxPoll (BitVec.ofNat 32 now)
  | .rxStatus => .rxStatus
  | .dirTx => .dirTx
  | .dirRx => .dirRx

/-- Word 0 of a line as R100's table computes it from the operands. -/
def AsmLine.number : AsmLine → Nat
  | .crcInit => 0x10000000
  | .crcUpdate b => 0x11000000 + b * 65536
  | .crcRead => 0x12000000
  | .crcCompute bytes => 0x13000000 + bytes.length
  | .crcVerify bytes => 0x14000000 + bytes.length
  | .crcAppend bytes => 0x15000000 + bytes.length
  | .bitPack idx v _ => 0x20000000 + v * 65536 + idx
  | .bitRead idx _ => 0x21000000 + idx
  | .w16To value => 0x22000000 + value
  | .w16From hi lo => 0x23000000 + hi * 65536 + lo
  | .rxByte b _ => 0x30000000 + b * 65536
  | .rxPoll _ => 0x31000000
  | .rxStatus => 0x32000000
  | .dirTx => 0x40000000
  | .dirRx => 0x41000000

/-- A line assembles, to its operation, exactly when its operands fit. -/
theorem assembleLine_answersWhen (l : AsmLine) : AnswersWhen (assembleLine l) l.Fits l.instr := by
  cases l with
  | crcInit | crcRead | rxStatus | dirTx | dirRx => exact answersWhen_some _
  | crcUpdate b => exact (operand_answersWhen 8 b).map Instr.crcUpdate
  | crcCompute bytes => exact (byteList_answersWhen bytes).map Instr.crcCompute
  | crcVerify bytes => exact (byteList_answersWhen bytes).map Instr.crcVerify
  | crcAppend bytes => exact (byteList_answersWhen bytes).map Instr.crcAppend
  | bitPack idx v nbits =>
    exact (operand_answersWhen 16 idx).bind
      ((operand_answersWhen 1 v).bind ((operand_answersWhen 32 nbits).map (Instr.bitPack _ _)))
  | bitRead idx nbits => exact (operand_answersWhen 16 idx).bind ((operand_answersWhen 32 nbits).map (Instr.bitRead _))
  | w16To value => exact (operand_answersWhen 16 value).map Instr.w16To
  | w16From hi lo => exact (operand_answersWhen 8 hi).bind ((operand_answersWhen 8 lo).map (Instr.w16From _))
  | rxByte b ts => exact (operand_answersWhen 8 b).bind ((operand_answersWhen 32 ts).map (Instr.rxByte _))
  | rxPoll now => exact (operand_answersWhen 32 now).map Instr.rxPoll

/-- The encoder's word 0 of a line whose operands fit is the table's. -/
theorem AsmLine.word0_instr {l : AsmLine} (h : l.Fits) : l.instr.word0 = BitVec.ofNat 32 l.number := by
  cases l with
  | crcInit | crcRead | rxStatus | dirTx | dirRx => rfl
  | rxPoll => exact (by decide : mkWord0 0x31 0 0 = 0x31000000#32)
  | crcUpdate | crcCompute | crcVerify | crcAppend | bitPack | bitRead | w16To | w16From | rxByte =>
    apply word0_eq_ofNat
    simp only [Fits] at h
    simp only [number, instr, Instr.opcode, Opcode.row, Instr.a8, Instr.b16, BitVec.ofNat_eq_ofNat, BitVec.toNat_ofNat,
      BitVec.toNat_setWidth, List.length_map]
    omega

/-- A line whose operands fit assembles to the streams of its operation, and any other does not assemble. -/
theorem AsmLine.assembles (l : AsmLine) :
    (l.Fits → Assembles l (BitVec.ofNat 32 l.number :: l.instr.operandWords) l.instr.data) ∧
      (¬ l.Fits → assembleLine l = none) := by
  have hline := assembleLine_answersWhen l
  exact ⟨fun h => ⟨l.instr, hline.eq_some h, by rw [encode, Instr.words, word0_instr h]⟩, hline.eq_none⟩

/-- Settles O7: one lemma for every line, at each row of R100's table. -/
theorem assemblerLinesGiveTheTableWords : Obligations.AssemblerLinesGiveTheTableWords := by
  refine ⟨⟨?_, ?_, ?_, ?_, ?_⟩, fun b => (AsmLine.crcUpdate b).assembles, fun bytes => ?_,
    fun idx v nbits => (AsmLine.bitPack idx v nbits).assembles, fun idx nbits => (AsmLine.bitRead idx nbits).assembles,
    fun value => (AsmLine.w16To value).assembles, fun hi lo => (AsmLine.w16From hi lo).assembles,
    fun b ts => (AsmLine.rxByte b ts).assembles, fun now => (AsmLine.rxPoll now).assembles⟩
  · exact AsmLine.crcInit.assembles.1 trivial
  · exact AsmLine.crcRead.assembles.1 trivial
  · exact AsmLine.rxStatus.assembles.1 trivial
  · exact AsmLine.dirTx.assembles.1 trivial
  · exact AsmLine.dirRx.assembles.1 trivial
  · obtain ⟨hcompute, hcompute'⟩ := (AsmLine.crcCompute bytes).assembles
    obtain ⟨hverify, hverify'⟩ := (AsmLine.crcVerify bytes).assembles
    obtain ⟨happend, happend'⟩ := (AsmLine.crcAppend bytes).assembles
    exact ⟨fun h => ⟨hcompute h, hverify h, happend h⟩, fun h => ⟨hcompute' h, hverify' h, happend' h⟩⟩

/-! ### Valid frames (R103, R105) -/

/-- A sequence of two bytes or more is a body and two trailer bytes. -/
theorem exists_body_trailer {f : Bytes} (h : 2 ≤ f.length) : ∃ (body : Bytes) (lo hi : Byte), f = body ++ [lo, hi] := by
  obtain ⟨lo, hi, htrailer⟩ : ∃ lo hi, f.drop (f.length - 2) = [lo, hi] :=
    List.length_eq_two.1 (by rw [List.length_drop]; omega)
  exact ⟨f.take (f.length - 2), lo, hi, by rw [← htrailer, List.take_append_drop]⟩

/-- A frame verifies exactly when its last two bytes are its body's checksum, low byte first (R132). -/
theorem verify_append_two_eq_one {body : Bytes} {lo hi : Byte} :
    verify (body ++ [lo, hi]) = 1 ↔ hi.toNat * 256 + lo.toNat = (crc16 body).toNat := by
  rw [verify_append_two, ← fromLe16_toNat, BitVec.toNat_inj, eq_comm (a := fromLe16 lo hi)]
  split
  · next h => exact iff_of_true rfl h
  · next h => exact iff_of_false (by decide) h

theorem validFrame_iff {f : Bytes} : validFrame f = true ↔ 4 ≤ f.length ∧ verify f = 1 := by
  simp [validFrame]

/-- A state that holds one byte, with no silence asked for: a candidate too short to be a frame. -/
def heldByte : State := { State.reset with cfg := ⟨0, 0, false⟩, fill := 1 }

/-- Settles O59: by the checksum test on a body and its trailer; a poll delivers a single byte as a candidate. -/
theorem validFrameIsABodyWithItsTrailer : Obligations.ValidFrameIsABodyWithItsTrailer := by
  constructor
  · intro f
    rw [validFrame_iff]
    constructor
    · rintro ⟨hlen, hverify⟩
      obtain ⟨body, lo, hi, rfl⟩ := exists_body_trailer (f := f) (by omega)
      exact ⟨body, lo, hi, rfl, hlen, verify_append_two_eq_one.1 hverify⟩
    · rintro ⟨body, lo, hi, rfl, hlen, htrailer⟩
      exact ⟨hlen, verify_append_two_eq_one.2 htrailer⟩
  · exact ⟨heldByte, _, 0, [0x00], exec_eq _ _, by decide, by decide⟩

/-- What CRC.APPEND builds from a body of two bytes or more is a valid frame (R138). -/
theorem validFrame_appendCrc {body : Bytes} (h : 2 ≤ body.length) : validFrame (appendCrc body) = true := by
  refine validFrame_iff.2 ⟨by simp [appendCrc, le16]; omega, ?_⟩
  exact verify_append_two_eq_one.2 (by rw [← fromLe16_toNat, fromLe16_le16])

/-- Settles O60: the exception frame is by definition what CRC.APPEND builds. -/
theorem exceptionFramesAreBuiltByAppend : Obligations.ExceptionFramesAreBuiltByAppend := by
  intro s unit fc code
  refine ⟨_, exec_eq _ s, State.ok_lastResponse s _, validFrame_appendCrc ?_, rfl⟩
  simp

end Sys2Proof.Machine

/-! SUPPORT. The settled statements of 40_crc.md: the checksum's step on numbers and through a table, its streaming
form, and what CRC.VERIFY tells of a frame. -/

namespace Sys2Proof.Machine

/-! ### The step and the fold (R130, R131) -/

/-- A shift round on 16 bits is the round on numbers. -/
theorem crcRound_toNat (c : U16) : (crcRound c).toNat = natRound c.toNat := by
  have hshift : (c >>> 1).toNat = c.toNat / 2 := by rw [BitVec.toNat_ushiftRight, Nat.shiftRight_one]
  have hbit : c.getLsbD 0 = true ↔ c.toNat % 2 = 1 := by
    rw [BitVec.getLsbD, Nat.testBit_zero, decide_eq_true_iff]
  unfold crcRound natRound
  rw [apply_ite BitVec.toNat, BitVec.toNat_xor, hshift]
  exact if_congr hbit rfl rfl

theorem crcRounds_toNat (k : Nat) (c : U16) : (crcRounds k c).toNat = natRound^[k] c.toNat := by
  induction k generalizing c with
  | zero => rfl
  | succ k ih => rw [crcRounds, ih, crcRound_toNat, Function.iterate_succ_apply]

/-- Settles O21: by induction over the rounds, each a round on numbers; widening the byte keeps its number. -/
theorem crcStepIsEightShiftRounds : Obligations.CrcStepIsEightShiftRounds := by
  intro c b
  have hbyte : (b.setWidth 16 : U16).toNat = b.toNat := BitVec.toNat_setWidth_of_le (by decide)
  rw [crcStep, crcRounds_toNat, BitVec.toNat_xor, hbyte]

/-- Settles O20: the last byte of a sequence is its last step. -/
theorem crc16FoldsCrcStepFromTheInitialValue : Obligations.Crc16FoldsCrcStepFromTheInitialValue :=
  ⟨rfl, fun s b => crc16_append s [b]⟩

/-! ### The table (R143) -/

theorem crcTable_getD (b : Byte) : crcTable.getD b.toNat 0 = crcRounds 8 (b.setWidth 16) := by
  simp [crcTable, b.isLt]

/-- A step splits, by linearity, into the checksum's own low byte, which shifts the high byte down, and the table's
entry for what the byte changes of it. -/
theorem tableStep_eq_crcStep (c : U16) (b : Byte) : tableStep c b = crcStep c b := by
  have hsplit : c.extractLsb' 0 8 ^^^ (c.extractLsb' 0 8 ^^^ b) = b := by rw [← BitVec.xor_assoc]; simp
  calc tableStep c b
      = crcStep c (c.extractLsb' 0 8) ^^^ crcStep 0 (c.extractLsb' 0 8 ^^^ b) := by
        rw [tableStep, crcTable_getD, crcStep_lowByte, crcStep, BitVec.ofNat_eq_ofNat, BitVec.zero_xor]
    _ = crcStep c b := by rw [← crcStep_xor, hsplit, BitVec.ofNat_eq_ofNat, BitVec.xor_zero]

/-- Settles O30: every step through the table is the bit-serial step. -/
theorem tableDrivenChecksumAgrees : Obligations.TableDrivenChecksumAgrees := by
  intro s
  have hstep : tableStep = crcStep := funext₂ tableStep_eq_crcStep
  rw [hstep]
  rfl

/-! ### The operations (R133 to R136, R139) -/

/-- Settles O22: the three effects as record updates. -/
theorem streamingChecksumOperationsComplete : Obligations.StreamingChecksumOperationsComplete :=
  ⟨fun s => exec_eq .crcInit s, fun s b => exec_eq (.crcUpdate b) s, fun s => exec_eq .crcRead s⟩

/-- Settles O23: the effect of CRC.COMPUTE, whose checksum is the fold. -/
theorem crcComputeAnswersTheChecksum : Obligations.CrcComputeAnswersTheChecksum :=
  fun s bytes => exec_eq (.crcCompute bytes) s

/-- The operations the block sees of `CRC.OF` (R101). -/
theorem crcOf_operations (bytes : Bytes) :
    (Pseudo.crcOf bytes).operations = .crcInit :: bytes.map .crcUpdate ++ [.crcRead] := by
  have hupdate : HostAction.instr ∘ (fun b => .op (.crcUpdate b)) = some ∘ Instr.crcUpdate := rfl
  simp [Pseudo.operations, Pseudo.expand, HostAction.instr, List.filterMap_map, hupdate]

theorem crcOf_wellFormed (bytes : Bytes) : ∀ i ∈ (Pseudo.crcOf bytes).operations, i.wellFormed = true := by
  intro i hi
  rw [crcOf_operations, List.cons_append, List.mem_cons, List.mem_append, List.mem_map, List.mem_singleton] at hi
  obtain rfl | ⟨b, -, rfl⟩ | rfl := hi <;> rfl

/-- A CRC.UPDATE for each byte feeds the bytes to the accumulator, with an empty response for each. -/
theorem effects_crcUpdate (bytes : Bytes) (s : State) :
    effects (bytes.map .crcUpdate) s =
      { s with crc := crcFrom s.crc bytes, res := s.res ++ List.replicate bytes.length (.ok .unit) } := by
  induction bytes generalizing s with
  | nil => simp
  | cons b bytes ih =>
    rw [List.map_cons, effects_cons, ih]
    apply State.ext_fields <;> simp [effect, List.replicate_succ]

theorem effects_crcOf (bytes : Bytes) (s : State) :
    effects (Pseudo.crcOf bytes).operations s =
      { s with crc := crc16 bytes,
               res := s.res ++ List.replicate (bytes.length + 1) (.ok .unit) ++ [.ok (.word (crc16 bytes))] } := by
  rw [crcOf_operations, List.cons_append, effects_cons, effects_append, effects_crcUpdate]
  apply State.ext_fields <;> simp [effect, crc16, List.replicate_succ]

/-- Settles O26: the steps run the issued operations in order (O14), which feed the bytes to the initial value. -/
theorem streamingEqualsCompute : Obligations.StreamingEqualsCompute := by
  intro bytes s hcmd hdin
  have hlen : (Pseudo.crcOf bytes).operations.length = bytes.length + 2 := by simp [crcOf_operations]
  rw [← hlen, steppingIssuedOperationsRunsThemInOrder _ s (crcOf_wellFormed bytes) hcmd hdin, execAll_eq, effects_crcOf]
  rfl

/-! ### Trailers (R132, R137, R140) -/

/-- A checksum is a trailer's exactly when it is the trailer's number, low byte first (R132). -/
theorem eq_fromLe16_iff {c : U16} {lo hi : Byte} : c = fromLe16 lo hi ↔ hi.toNat * 256 + lo.toNat = c.toNat := by
  rw [← fromLe16_toNat, BitVec.toNat_inj, eq_comm]

/-- Settles O24: a short input is answered first; otherwise the trailer is compared as a number. -/
theorem crcVerifyComparesTheTrailer : Obligations.CrcVerifyComparesTheTrailer := by
  constructor
  · intro s f hshort
    rw [exec_eq, effect, verify_of_short hshort]
    rfl
  · intro s body lo hi
    rw [exec_eq, effect, verify_append_two, if_congr eq_fromLe16_iff rfl rfl]
    rfl

/-- Feeding a checksum its own trailer clears it: the low byte shifts the high byte down, which the high byte
cancels. -/
theorem crcFrom_le16_self (c : U16) : crcFrom c (le16 c) = 0 := by
  have hhigh : c >>> 8 = (c.extractLsb' 8 8 : Byte).setWidth 16 := by
    apply BitVec.eq_of_toNat_eq
    rw [BitVec.toNat_setWidth_of_le (by decide), highByte_toNat, BitVec.toNat_ushiftRight, Nat.shiftRight_eq_div_pow]
  rw [le16, crcFrom_cons, crcFrom_cons, crcFrom_nil, crcStep_lowByte, hhigh, crcStep_self]

theorem le16_fromLe16 (lo hi : Byte) : le16 (fromLe16 lo hi) = [lo, hi] :=
  congrArg₂ (fun x y => [x, y]) (lowByte_fromWire16 hi lo) (highByte_fromWire16 hi lo)

/-- Two bytes clear exactly one checksum, the one they are the trailer of: another would stay different. -/
theorem crcFrom_two_eq_zero {c : U16} {lo hi : Byte} : crcFrom c [lo, hi] = 0 ↔ c = fromLe16 lo hi := by
  have htrailer : crcFrom (fromLe16 lo hi) [lo, hi] = 0 := le16_fromLe16 lo hi ▸ crcFrom_le16_self (fromLe16 lo hi)
  constructor
  · intro h
    exact crcFrom_injective (h.trans htrailer.symm)
  · rintro rfl
    exact htrailer

/-- Settles O27: a frame is a body and two bytes, which clear the body's checksum exactly when they are its trailer. -/
theorem zeroResidueDecidesVerify : Obligations.ZeroResidueDecidesVerify := by
  constructor
  · intro s
    rw [crc16_append, crcFrom_le16_self]
  · intro f hlen
    obtain ⟨body, lo, hi, rfl⟩ := exists_body_trailer hlen
    rw [crc16_append, crcFrom_two_eq_zero, verify_append_two_eq_one, eq_fromLe16_iff]

/-! ### Appended frames (R141, R142) -/

/-- A body under the trailer of another verifies exactly when their checksums are the same. -/
theorem verify_append_le16 (s : Bytes) (c : U16) : verify (s ++ le16 c) = if crc16 s = c then 1 else 0 := by
  rw [le16, verify_append_two, fromLe16_le16]

theorem verify_appendCrc (s : Bytes) : verify (appendCrc s) = 1 := by
  rw [appendCrc, verify_append_le16, if_pos rfl]

/-- Settles O28: the frame is two bytes longer than its body and carries the body's own trailer. -/
theorem appendedFrameVerifies : Obligations.AppendedFrameVerifies := by
  intro s bytes hlen
  have hwf : (Instr.crcVerify (appendCrc bytes)).wellFormed = true := by
    simp [Instr.wellFormed, appendCrc, le16, maxData]
    omega
  refine ⟨appendCrc bytes, _, _, exec_eq _ s, State.ok_lastResponse s _, hwf, exec_eq _ _, ?_⟩
  rw [effect, State.ok_lastResponse, verify_appendCrc]

/-- A change of one byte changes the checksum: the step on that byte tells the two apart, and they stay apart over the
bytes that follow. -/
theorem crcFrom_modify_ne {g : Byte → Byte} (hg : ∀ b, g b ≠ b) {s : Bytes} {k : Nat} (hk : k < s.length) (c : U16) :
    crcFrom c (s.modify k g) ≠ crcFrom c s := by
  induction s generalizing k c with
  | nil => exact absurd hk (Nat.not_lt_zero k)
  | cons b s ih =>
    cases k with
    | zero => exact fun h => hg b (crcStep_byte_injective (crcFrom_injective h))
    | succ k => exact ih (Nat.lt_of_succ_lt_succ hk) (crcStep c b)

theorem flipBit_ne {j : Nat} (hj : j < 8) (b : Byte) : b ^^^ (1#8 <<< j) ≠ b := by
  intro h
  have hbit := congrArg (·.getLsbD j) h
  simp [hj] at hbit

/-- A change inside a body leaves its trailer. -/
theorem appendCrc_modify (g : Byte → Byte) {s : Bytes} {k : Nat} (hk : k < s.length) :
    (appendCrc s).modify k g = s.modify k g ++ le16 (crc16 s) := by
  have hk' : k < (s ++ le16 (crc16 s)).length := by rw [List.length_append]; omega
  rw [appendCrc, List.modify_eq_set_get g hk, List.modify_eq_set_get g hk', List.set_append_left _ _ hk]
  simp [List.getElem_append_left hk]

/-- Settles O29: the flipped body has another checksum, and the trailer is still that of the old one. -/
theorem singleBitErrorOutsideTheTrailerIsDetected : Obligations.SingleBitErrorOutsideTheTrailerIsDetected := by
  intro s bytes k j hk hj
  refine ⟨_, exec_eq _ s, ?_⟩
  have hchanged : crc16 (bytes.modify k _) ≠ crc16 bytes := crcFrom_modify_ne (flipBit_ne hj) hk crcInitValue
  rw [effect, State.ok_lastResponse, appendCrc_modify _ hk, verify_append_le16, if_neg hchanged]

end Sys2Proof.Machine

/-! SUPPORT. The settled statements of 41_codec.md: what BIT.PACK writes, what BIT.READ answers, and the two 16-bit
conversions. -/

namespace Sys2Proof.Machine

/-! ### The caller buffer as a sequence of bits (R171, R175) -/

/-- The caller buffer after bit `idx` of it is replaced by `v`. -/
def Memory.pack (m : Memory) (idx : U16) (v : U1) : Memory :=
  write m (idx.toNat / 8) (packBit (read m (idx.toNat / 8)) (idx.toNat % 8) v)

theorem Memory.wf_pack {m : Memory} (h : wf m = true) (idx : U16) (v : U1) : wf (pack m idx v) = true :=
  wf_write _ _ h

/-- Bit `k` of byte `a` is bit `8 * a + k` of the buffer: packing replaces the one with number `idx`. -/
theorem Memory.read_pack_getLsbD {m : Memory} (h : wf m = true) (idx : U16) (v : U1) (a : Nat) {k : Nat} (hk : k < 8) :
    (read (pack m idx v) a).getLsbD k = if 8 * a + k = idx.toNat then v.getLsbD 0 else (read m a).getLsbD k := by
  by_cases ha : a = idx.toNat / 8
  · have position : 8 * a + k = idx.toNat ↔ k = idx.toNat % 8 := by omega
    rw [pack, ← ha, read_write_same a _ h, packBit_getLsbD _ v hk]
    simp only [position]
  · rw [pack, read_write_other _ ha, if_neg (by omega)]

/-- Two packs of different bits leave, in either order, the same value in every bit, so the same data. -/
theorem Memory.pack_comm {m : Memory} (h : wf m = true) {idx idx' : U16} (hne : idx ≠ idx') (v v' : U1) :
    pack (pack m idx v) idx' v' = pack (pack m idx' v') idx v := by
  have first := wf_pack h idx v
  have first' := wf_pack h idx' v'
  refine ext_of_read (wf_pack first idx' v') (wf_pack first' idx v) fun a => BitVec.eq_of_getLsbD_eq fun k hk => ?_
  rw [read_pack_getLsbD first idx' v' a hk, read_pack_getLsbD h idx v a hk, read_pack_getLsbD first' idx v a hk,
    read_pack_getLsbD h idx' v' a hk]
  by_cases hbit : 8 * a + k = idx.toNat
  · have hother : 8 * a + k ≠ idx'.toNat := fun hbit' => hne (BitVec.eq_of_toNat_eq (hbit.symm.trans hbit'))
    simp only [if_pos hbit, if_neg hother]
  · simp only [if_neg hbit]

/-- BIT.PACK with its bounds check passed packs the bit and responds (R171). -/
theorem effect_bitPack_inBounds {s : State} {idx : U16} {nbits : U32} (hidx : idx.toNat < nbits.toNat)
    (hbyte : idx.toNat / 8 < s.cfg.cbufBytes.val) (v : U1) :
    effect (.bitPack idx v nbits) s =
      { s with cbuf := Memory.pack s.cbuf idx v, res := s.res ++ [.ok .unit] } :=
  effect_bitPack_of_some (bitAddr_eq_some.2 ⟨hidx, hbyte, rfl, rfl⟩) v

/-! ### BIT.PACK and BIT.READ in bounds (R171, R172) -/

/-- Settles O32: the operation's state is the packed buffer with the response, read bit by bit. -/
theorem bitPackReplacesOneBit : Obligations.BitPackReplacesOneBit := by
  intro s idx v nbits hwf hidx hbyte
  refine ⟨_, exec_eq _ s, ?_⟩
  rw [effect_bitPack_inBounds hidx hbyte v]
  refine ⟨rfl, Memory.wf_pack hwf idx v, fun a ha => Memory.read_write_other _ ha, fun k hk => ?_⟩
  have position : 8 * (idx.toNat / 8) + k = idx.toNat ↔ k = idx.toNat % 8 := by omega
  simp only [State.memRead, Memory.read_pack_getLsbD hwf idx v _ hk, position]

/-- Settles O33: the bounds check passes, and the operation only responds. -/
theorem bitReadAnswersTheAddressedBit : Obligations.BitReadAnswersTheAddressedBit := by
  intro s idx nbits hidx hbyte
  rw [exec_eq, effect_bitRead_inBounds hidx hbyte]
  rfl

/-- Settles O56: the operation stores one byte, at the address the check names, and responds. -/
theorem bitPackStoresToItsByteOnly : Obligations.BitPackStoresToItsByteOnly := by
  intro s t idx v nbits a p hat ht
  obtain rfl := exec_next ht
  rw [effect_bitPack_of_some hat v]
  exact ⟨fun x hx => State.memRead_memWrite_other _ hx, rfl, rfl, rfl, rfl, rfl, rfl, rfl, rfl, rfl⟩

theorem effects_two_bitPacks {s : State} {idx idx' : U16} {nbits nbits' : U32} (hidx : idx.toNat < nbits.toNat)
    (hbyte : idx.toNat / 8 < s.cfg.cbufBytes.val) (hidx' : idx'.toNat < nbits'.toNat)
    (hbyte' : idx'.toNat / 8 < s.cfg.cbufBytes.val) (v v' : U1) :
    effects [.bitPack idx v nbits, .bitPack idx' v' nbits'] s =
      { s with
        cbuf := Memory.pack (Memory.pack s.cbuf idx v) idx' v'
        res := s.res ++ [.ok .unit] ++ [.ok .unit] } := by
  rw [effects_cons, effects_cons, effects_nil, effect_bitPack_inBounds hidx' (by simpa using hbyte') v',
    effect_bitPack_inBounds hidx hbyte v]

/-- Settles O38: the two orders pack the same buffer, and each operation adds the same response. -/
theorem packsOfDifferentBitsCommute : Obligations.PacksOfDifferentBitsCommute := by
  intro s idx idx' v v' nbits nbits' hwf hne hidx hbyte hidx' hbyte'
  rw [execAll_eq, execAll_eq, effects_two_bitPacks hidx hbyte hidx' hbyte',
    effects_two_bitPacks hidx' hbyte' hidx hbyte, Memory.pack_comm hwf hne]

/-! ### A packed bit stays until its byte is packed again (R175 (c), R76) -/

/-- The only operation that changes a byte of the caller buffer is a BIT.PACK aimed at it (R62, R70). -/
theorem effect_memRead_of_not_packsByte {a : Nat} {i : Instr} (h : packsByte a i = false) (s : State) :
    (effect i s).memRead a = s.memRead a := by
  match i, h with
  | .bitPack idx v nbits, h =>
    cases hat : bitAddr s.cfg idx nbits with
    | none => rw [effect_bitPack_of_none hat v]; rfl
    | some place =>
      obtain ⟨-, -, hplace, -⟩ := bitAddr_eq_some.1 hat
      have hne : a ≠ place.1 := by rw [hplace]; exact Ne.symm (of_decide_eq_false h)
      rw [effect_bitPack_of_some hat v]
      exact State.memRead_memWrite_other _ hne
  | .bitRead idx nbits, _ =>
    obtain ⟨r, hr, -⟩ := effect_readsOnly (i := .bitRead idx nbits) rfl s
    rw [hr]; rfl
  | .w16To _, _ | .w16From _ _, _ => rfl
  | .crcInit, _ | .crcUpdate _, _ | .crcRead, _ | .crcCompute _, _ | .crcVerify _, _ | .crcAppend _, _
  | .rxByte _ _, _ | .rxPoll _, _ | .rxStatus, _ | .dirTx, _ | .dirRx, _ =>
    exact State.memRead_congr (effect_cbuf (by simp [unitOf]) s) a

theorem effects_memRead_of_not_packsByte {a : Nat} {ops : List Instr} (h : ∀ i ∈ ops, packsByte a i = false)
    (s : State) : (effects ops s).memRead a = s.memRead a := by
  induction ops generalizing s with
  | nil => rfl
  | cons i ops ih =>
    obtain ⟨hi, hops⟩ := List.forall_mem_cons.1 h
    exact (ih hops (effect i s)).trans (effect_memRead_of_not_packsByte hi s)

/-- A bit value is told by its one bit. -/
theorem bit_of_getLsbD (v : U1) : (if v.getLsbD 0 then 1 else 0) = v := by
  revert v; decide

/-- Settles O37: the pack leaves `v` in the addressed bit, the operations after it leave the byte, and BIT.READ answers
that bit. -/
theorem bitReadSeesTheLastPack : Obligations.BitReadSeesTheLastPack := by
  intro s t u idx v nbits ops hwf hidx hbyte ht hops hu
  obtain rfl := exec_next ht
  obtain rfl := execAll_next hu
  have packed : ((effect (.bitPack idx v nbits) s).memRead (idx.toNat / 8)).getLsbD (idx.toNat % 8) = v.getLsbD 0 := by
    rw [effect_bitPack_inBounds hidx hbyte v]
    exact (Memory.read_pack_getLsbD hwf idx v _ (Nat.mod_lt _ (by decide))).trans (if_pos (Nat.div_add_mod _ 8))
  rw [exec_eq, effect_bitRead_inBounds hidx (by simpa using hbyte), effects_memRead_of_not_packsByte hops, packed,
    bit_of_getLsbD]
  rfl

/-! ### The 16-bit conversions (R173, R174, R175 (a) and (b)) -/

/-- W16.FROM's answer as the number R174 gives. -/
theorem fromWire16_eq_ofNat (hi lo : Byte) : fromWire16 hi lo = BitVec.ofNat 16 (hi.toNat * 256 + lo.toNat) := by
  rw [← fromWire16_toNat, BitVec.ofNat_toNat, BitVec.setWidth_eq]

theorem toWire16_fromWire16 (hi lo : Byte) : toWire16 (fromWire16 hi lo) = [hi, lo] := by
  rw [toWire16, highByte_fromWire16, lowByte_fromWire16]

/-- Settles O35: the operation only responds, with the two bytes as one number. -/
theorem w16FromJoinsTheTwoBytes : Obligations.W16FromJoinsTheTwoBytes := by
  intro s hi lo
  rw [← fromWire16_eq_ofNat]
  exact exec_eq _ s

/-- Settles O36: the value's two bytes joined are the value, and the joined value's bytes are the two. -/
theorem wireConversionsUndoEachOther : Obligations.WireConversionsUndoEachOther := by
  constructor
  · intro s v
    refine ⟨v.extractLsb' 8 8, v.extractLsb' 0 8, _, _, exec_eq _ s, State.ok_lastResponse s _, exec_eq _ _, ?_⟩
    simp only [effect, State.ok_lastResponse, fromWire16_bytes]
  · intro s hi lo
    refine ⟨fromWire16 hi lo, _, _, exec_eq _ s, State.ok_lastResponse s _, exec_eq _ _, ?_⟩
    simp only [effect, State.ok_lastResponse, toWire16_fromWire16]

end Sys2Proof.Machine

/-! SUPPORT. The settled statements of 42_assembler.md: what RX.BYTE, RX.POLL and RX.STATUS do and leave unchanged, the
silence across a clock wrap, merging and splitting of frames, and what a reception schedule delivers. -/

namespace Sys2Proof.Machine

/-! ### The assembler's operations, one equation for each outcome (R202 to R204) -/

/-- RX.BYTE with room stores the byte and counts it. -/
theorem effect_rxByte_of_room {s : State} (room : s.fill.toNat < 256) (b : Byte) (ts : U32) :
    effect (.rxByte b ts) s = { s with
      rxbuf := s.rxbuf.set s.fill.toNat b, fill := s.fill + 1, last_ts := ts, res := s.res ++ [.ok .unit] } := by
  have hroom := State.hasRoom_iff.2 room
  have hset : s.rxbuf.setIfInBounds s.fill.toNat b = s.rxbuf.set s.fill.toNat b :=
    Vector.toArray_inj.1 (dif_pos (by simpa using room))
  apply State.ext_fields <;> simp [effect, State.ovfAfterByte, hroom, hset]

/-- RX.BYTE without room drops the byte. -/
theorem effect_rxByte_of_full {s : State} (full : 256 ≤ s.fill.toNat) (b : Byte) (ts : U32) :
    effect (.rxByte b ts) s = { s with ovf := 1, last_ts := ts, res := s.res ++ [.ok .unit] } := by
  have hroom : ¬ s.hasRoom = true := mt State.hasRoom_iff.1 (Nat.not_lt.2 full)
  apply State.ext_fields <;> simp [effect, State.ovfAfterByte, hroom]

/-- RX.POLL of a complete frame delivers it and re-arms the assembler. -/
theorem effect_rxPoll_of_complete {s : State} {now : U32} (silence : s.complete now = true) :
    effect (.rxPoll now) s =
      { s with fill := 0, ovf := 0, res := s.res ++ [.ok (.poll ⟨1, s.ovf, s.frame⟩)] } := by
  apply State.ext_fields <;> simp [effect, State.ovfAfterPoll, silence]

/-- RX.POLL before that only answers. -/
theorem effect_rxPoll_of_not_complete {s : State} {now : U32} (early : ¬ s.complete now = true) :
    effect (.rxPoll now) s = { s with res := s.res ++ [.ok (.poll ⟨0, s.ovf, []⟩)] } :=
  if_neg early

/-- Settles O42: the two clauses are RX.BYTE's two equations. -/
theorem rxByteStoresOrDrops : Obligations.RxByteStoresOrDrops := by
  intro s b ts
  constructor
  · intro room
    rw [exec_eq, effect_rxByte_of_room room]
  · intro full
    rw [exec_eq, effect_rxByte_of_full full]

/-- `complete` with the silence computed on numbers modulo 2^32 (R200). -/
theorem State.complete_iff_mod {s : State} {now : U32} : s.complete now = true ↔
    0 < s.fill.toNat ∧ s.cfg.tIfdMs.toNat ≤ (now.toNat + 2 ^ 32 - s.last_ts.toNat) % 2 ^ 32 := by
  have hsilence := elapsed_toNat now s.last_ts
  rw [← Nat.add_sub_assoc s.last_ts.isLt.le] at hsilence
  rw [State.complete_iff, ← hsilence, elapsed]

/-- Settles O43: the two clauses are RX.POLL's two equations. -/
theorem rxPollDeliversAtTheSilence : Obligations.RxPollDeliversAtTheSilence := by
  intro s now
  constructor
  · intro held silence
    rw [exec_eq, effect_rxPoll_of_complete (State.complete_iff_mod.2 ⟨held, silence⟩), State.frame]
  · intro early
    have hearly : ¬ s.complete now = true := by
      rw [State.complete_iff_mod]
      omega
    rw [exec_eq, effect_rxPoll_of_not_complete hearly]

/-- Settles O44: RX.STATUS only responds. -/
theorem rxStatusAnswersTheAssemblerState : Obligations.RxStatusAnswersTheAssemblerState :=
  fun s => exec_eq .rxStatus s

/-! ### What an operation does to the assembler (R34 to R38) -/

/-- No operation but RX.BYTE and RX.POLL writes `ovf` (R36). -/
theorem effect_ovf {i : Instr} (hbyte : ∀ b ts, i ≠ .rxByte b ts) (hpoll : ∀ now, i ≠ .rxPoll now) (s : State) :
    (effect i s).ovf = s.ovf := by
  by_cases hunit : unitOf i = .assembler
  · match i, hunit, hbyte, hpoll with
    | .rxByte b ts, _, hbyte, _ => exact absurd rfl (hbyte b ts)
    | .rxPoll now, _, _, hpoll => exact absurd rfl (hpoll now)
    | .rxStatus, _, _, _ => rfl
  · obtain ⟨-, -, hovf, -⟩ := effect_assembler hunit s
    exact hovf

/-- No operation but RX.POLL delivers a frame. -/
theorem effect_deliversNothing {i : Instr} (hpoll : ∀ now, i ≠ .rxPoll now) (s : State) :
    ∃ r, (effect i s).res = s.res ++ [r] ∧ deliversNothing r = true := by
  match i, hpoll with
  | .rxPoll now, hpoll => exact absurd rfl (hpoll now)
  | .bitPack _ _ _, _ | .bitRead _ _, _ =>
    simp only [effect]
    split <;> exact ⟨_, rfl, rfl⟩
  | .rxByte b ts, _ | .dirTx, _ => exact ⟨.ok .unit, by simp [effect], rfl⟩
  | .crcInit, _ | .crcUpdate _, _ | .crcRead, _ | .crcCompute _, _ | .crcVerify _, _ | .crcAppend _, _
  | .w16To _, _ | .w16From _ _, _ | .rxStatus, _ | .dirRx, _ => exact ⟨_, rfl, rfl⟩

/-- The ways an operation treats the assembler. -/
inductive AssemblerCase (s : State) : Instr → State → Prop where
  /-- RX.BYTE with room. -/
  | stored (b : Byte) (ts : U32) (room : s.fill.toNat < 256) : AssemblerCase s (.rxByte b ts) { s with
      rxbuf := s.rxbuf.set s.fill.toNat b, fill := s.fill + 1, last_ts := ts, res := s.res ++ [.ok .unit] }
  /-- RX.BYTE without room. -/
  | dropped (b : Byte) (ts : U32) (full : 256 ≤ s.fill.toNat) : AssemblerCase s (.rxByte b ts) { s with
      ovf := 1, last_ts := ts, res := s.res ++ [.ok .unit] }
  /-- RX.POLL of a complete frame. -/
  | delivered (now : U32) (silence : s.complete now = true) : AssemblerCase s (.rxPoll now) { s with
      fill := 0, ovf := 0, res := s.res ++ [.ok (.poll ⟨1, s.ovf, s.frame⟩)] }
  /-- RX.POLL before that. -/
  | notReady (now : U32) (early : ¬ s.complete now = true) : AssemblerCase s (.rxPoll now) { s with
      res := s.res ++ [.ok (.poll ⟨0, s.ovf, []⟩)] }
  /-- Any other operation. -/
  | untouched (i : Instr) (t : State) (r : Response) (hbyte : ∀ b ts, i ≠ .rxByte b ts) (hfill : t.fill = s.fill)
      (hbuf : t.rxbuf = s.rxbuf) (hovf : t.ovf = s.ovf) (hts : t.last_ts = s.last_ts) (hres : t.res = s.res ++ [r])
      (quiet : deliversNothing r = true) : AssemblerCase s i t

/-- Every operation treats the assembler in one of these ways. -/
theorem assembler_cases (i : Instr) (s : State) : AssemblerCase s i (effect i s) := by
  by_cases hbyte : ∃ b ts, i = .rxByte b ts
  · obtain ⟨b, ts, rfl⟩ := hbyte
    by_cases room : s.fill.toNat < 256
    · rw [effect_rxByte_of_room room]
      exact .stored b ts room
    · rw [effect_rxByte_of_full (Nat.not_lt.1 room)]
      exact .dropped b ts (Nat.not_lt.1 room)
  by_cases hpoll : ∃ now, i = .rxPoll now
  · obtain ⟨now, rfl⟩ := hpoll
    by_cases silence : s.complete now = true
    · rw [effect_rxPoll_of_complete silence]
      exact .delivered now silence
    · rw [effect_rxPoll_of_not_complete silence]
      exact .notReady now silence
  push Not at hbyte hpoll
  obtain ⟨hfill, hbuf⟩ := effect_fill_rxbuf hbyte hpoll s
  obtain ⟨r, hres, quiet⟩ := effect_deliversNothing hpoll s
  exact .untouched i _ r hbyte hfill hbuf (effect_ovf hbyte hpoll s) (effect_last_ts hbyte s) hres quiet

namespace AssemblerCase

variable {s t : State} {i : Instr}

/-- The one buffer entry that changes is the one RX.BYTE stores to. -/
theorem rxbuf_changed (h : AssemblerCase s i t) {k : Nat} (hk : k < 256) (hne : t.rxbuf[k] ≠ s.rxbuf[k]) :
    k = s.fill.toNat ∧ ∃ b ts, i = .rxByte b ts := by
  cases h with
  | stored b ts room =>
    refine ⟨?_, b, ts, rfl⟩
    by_contra hother
    exact hne (Vector.getElem_set_ne room hk (Ne.symm hother))
  | dropped | delivered | notReady => exact absurd rfl hne
  | untouched _ _ _ _ _ hbuf => simp [hbuf] at hne

theorem fill_changed (h : AssemblerCase s i t) (hne : t.fill ≠ s.fill) :
    (t.fill = s.fill + 1 ∧ s.fill.toNat < 256 ∧ ∃ b ts, i = .rxByte b ts) ∨
      (t.fill = 0 ∧ ∃ now, i = .rxPoll now ∧ s.complete now = true) := by
  cases h with
  | stored b ts room => exact .inl ⟨rfl, room, b, ts, rfl⟩
  | delivered now silence => exact .inr ⟨rfl, now, rfl, silence⟩
  | dropped | notReady => exact absurd rfl hne
  | untouched _ _ _ _ hfill => exact absurd hfill hne

theorem ovf_changed (h : AssemblerCase s i t) (hne : t.ovf ≠ s.ovf) :
    (t.ovf = 1 ∧ 256 ≤ s.fill.toNat ∧ ∃ b ts, i = .rxByte b ts) ∨
      (t.ovf = 0 ∧ ∃ now, i = .rxPoll now ∧ s.complete now = true) := by
  cases h with
  | dropped b ts full => exact .inl ⟨rfl, full, b, ts, rfl⟩
  | delivered now silence => exact .inr ⟨rfl, now, rfl, silence⟩
  | stored | notReady => exact absurd rfl hne
  | untouched _ _ _ _ _ _ hovf => exact absurd hovf hne

end AssemblerCase

/-- Settles O57: the other units' state and the ports by the frame of the assembler unit, the assembler's own by its
five cases. -/
theorem assemblerOperationsLeaveTheRestUnchanged : Obligations.AssemblerOperationsLeaveTheRestUnchanged := by
  intro i s t h hunit
  obtain rfl := exec_next h
  have hcase := assembler_cases i s
  exact ⟨effect_crc (by simp [hunit]) s, effect_dir (by simp [hunit]) s, effect_cfg i s, effect_cmd i s, effect_din i s,
    State.memRead_congr (effect_cbuf (by simp [hunit]) s), fun _ hk hne => hcase.rxbuf_changed hk hne,
    fun hbyte => effect_last_ts hbyte s, hcase.fill_changed, hcase.ovf_changed⟩

/-! ### The silence across a wrap of the clock (R200, R301, R305) -/

/-- A poll delivers exactly when `complete` holds. -/
theorem pollDeliversIff_of_complete_iff {s : State} {now : U32} {p : Prop} (h : s.complete now = true ↔ p) :
    PollDeliversIff s now p := by
  refine ⟨effect (.rxPoll now) s, ⟨if s.complete now then 1 else 0, s.ovf, if s.complete now then s.frame else []⟩,
    exec_eq _ s, ?_⟩
  by_cases silence : s.complete now = true
  · simp [effect_rxPoll_of_complete silence, silence, h.1 silence]
  · simp [effect_rxPoll_of_not_complete silence, silence, mt h.2 silence]

/-- The clock's difference is the true one, while that is less than a wrap. -/
theorem PollNotEarly.silence_toNat {s : State} {now : U32} {lastMs nowMs : Nat} (h : PollNotEarly s now lastMs nowMs) :
    (now - s.last_ts).toNat = nowMs - lastMs := by
  obtain ⟨hlast, hnow, order, within⟩ := h
  rw [hlast, hnow, BitVec.toNat_sub, BitVec.toNat_ofNat, BitVec.toNat_ofNat]
  omega

/-- A clock that lies `d` ms before the last byte's timestamp shows a silence of a wrap less `d`. -/
theorem silence_toNat_of_early {now ts : U32} {d : Nat} (hpos : 0 < d) (hlt : d < 2 ^ 32)
    (hts : ts = now + BitVec.ofNat 32 d) : (now - ts).toNat = 2 ^ 32 - d := by
  have hnow := now.isLt
  rw [hts, BitVec.toNat_sub, BitVec.toNat_add, BitVec.toNat_ofNat]
  omega

/-- Settles O51: with a byte held `complete` compares the silence alone, whose value the two lemmas above give. -/
theorem pollMeasuresTheSilenceModuloTheClockWrap : Obligations.PollMeasuresTheSilenceModuloTheClockWrap := by
  intro s now held
  have hcomplete : s.complete now = true ↔ s.cfg.tIfdMs.toNat ≤ (now - s.last_ts).toNat :=
    State.complete_iff.trans (and_iff_right held)
  constructor
  · intro lastMs nowMs h
    exact pollDeliversIff_of_complete_iff (h.silence_toNat ▸ hcomplete)
  · intro d hpos hlt hts
    exact pollDeliversIff_of_complete_iff (silence_toNat_of_early hpos hlt hts ▸ hcomplete)

/-! ### Merging and splitting (R208, R209, R211) -/

theorem toNat_fill_succ {n : U9} (h : n.toNat < 256) : (n + 1).toNat = n.toNat + 1 := by
  have hone : (1 : U9).toNat = 1 := rfl
  rw [BitVec.toNat_add, hone]
  omega

/-- A stored byte is the last of the bytes held. -/
theorem frame_rxByte_of_room {s : State} (room : s.fill.toNat < 256) (b : Byte) (ts : U32) :
    (effect (.rxByte b ts) s).frame = s.frame ++ [b] := by
  have hlen : s.fill.toNat < s.rxbuf.toList.length := by simpa using room
  rw [effect_rxByte_of_room room]
  simp only [State.frame, toNat_fill_succ room, Vector.toList_set, List.take_add_one,
    List.take_set_of_le (Nat.le_refl _), List.getElem?_set_self hlen, Option.toList_some]

/-- After a stored byte a poll measures the silence since that byte. -/
theorem complete_rxByte_of_room {s : State} (room : s.fill.toNat < 256) (b : Byte) {ts now : U32}
    (silence : s.cfg.tIfdMs.toNat ≤ (now - ts).toNat) : (effect (.rxByte b ts) s).complete now = true := by
  rw [effect_rxByte_of_room room, State.complete_iff, toNat_fill_succ room]
  exact ⟨Nat.succ_pos _, silence⟩

/-- A byte and a poll after the silence deliver the bytes held and that byte. -/
theorem res_rxByte_rxPoll {s : State} (room : s.fill.toNat < 256) (b : Byte) {ts now : U32}
    (silence : s.cfg.tIfdMs.toNat ≤ (now - ts).toNat) :
    (effects [.rxByte b ts, .rxPoll now] s).res =
      s.res ++ [.ok .unit, .ok (.poll ⟨1, s.ovf, s.frame ++ [b]⟩)] := by
  rw [effects_cons, effects_cons, effects_nil, effect_rxPoll_of_complete (complete_rxByte_of_room room b silence),
    frame_rxByte_of_room room, effect_rxByte_of_room room]
  simp

/-- Settles O50: the byte and the second poll run on the state as it is, or on the empty assembler that the first poll
left. -/
theorem unpolledSilenceMergesAndPolledSilenceSplits : Obligations.UnpolledSilenceMergesAndPolledSilenceSplits := by
  intro s now ts now' b complete silence
  refine ⟨fun room => ⟨_, execAll_eq _ _, res_rxByte_rxPoll room b silence⟩, _, execAll_eq _ _, ?_⟩
  have rearmed := effect_rxPoll_of_complete complete
  have hroom : (effect (.rxPoll now) s).fill.toNat < 256 := by simp [rearmed]
  rw [effects_cons, res_rxByte_rxPoll hroom b (by rwa [effect_cfg]), rearmed]
  simp [State.frame]

/-! ### Reception schedules, one operation at a time (R210) -/

theorem lastArrival_cons (last : Option U32) (i : Instr) (ops : List Instr) :
    lastArrival last (i :: ops) = lastArrival (lastArrival last [i]) ops := by
  cases i <;> rfl

theorem lastArrival_of_not_rxByte {i : Instr} (h : ∀ b ts, i ≠ .rxByte b ts) (last : Option U32) :
    lastArrival last [i] = last := by
  cases i with
  | rxByte b ts => exact absurd rfl (h b ts)
  | _ => rfl

theorem receivedBytes_cons (i : Instr) (ops : List Instr) :
    receivedBytes (i :: ops) = receivedBytes [i] ++ receivedBytes ops :=
  List.filterMap_append (l := [i])

theorem receivedBytes_of_not_rxByte {i : Instr} (h : ∀ b ts, i ≠ .rxByte b ts) : receivedBytes [i] = [] := by
  cases i with
  | rxByte b ts => exact absurd rfl (h b ts)
  | _ => rfl

/-- The schedule's condition on its first operation and on the rest. -/
theorem silencesBelow_cons {delay : U32} {last : Option U32} {i : Instr} {ops : List Instr}
    (h : silencesBelow delay last (i :: ops) = true) :
    silencesBelow delay last [i] = true ∧ silencesBelow delay (lastArrival last [i]) ops = true := by
  cases i with
  | rxPoll now =>
    cases last with
    | none => exact ⟨rfl, h⟩
    | some ts => simpa [silencesBelow, lastArrival] using h
  | _ => exact ⟨rfl, h⟩

/-- A poll of the schedule sees a silence below the delay since the byte before it. -/
theorem elapsed_lt_of_silencesBelow {delay ts now : U32} (h : silencesBelow delay (some ts) [.rxPoll now] = true) :
    elapsed now ts < delay := by
  simpa [silencesBelow] using h

/-! ### What a schedule delivers (R207, R210) -/

/-- The assembler holds what it has received of `bytes`, handed over since it was last empty: the first 256 of them,
with `ovf` when there were more; `last` is the timestamp of the last. -/
structure Assembling (bytes : Bytes) (last : Option U32) (s : State) : Prop where
  fill_eq : s.fill.toNat = min bytes.length 256
  frame_eq : s.frame = bytes.take 256
  ovf_eq : s.ovf = if bytes.length ≤ 256 then 0 else 1
  last_eq : last = if bytes = [] then none else some s.last_ts

namespace Assembling

variable {s t : State} {i : Instr} {bytes : Bytes} {last : Option U32}

theorem of_empty (hfill : s.fill = 0) (hovf : s.ovf = 0) : Assembling [] none s :=
  ⟨by simp [hfill], by simp [State.frame, hfill], hovf, rfl⟩

theorem congr (h : Assembling bytes last s) (hfill : t.fill = s.fill) (hbuf : t.rxbuf = s.rxbuf)
    (hovf : t.ovf = s.ovf) (hts : t.last_ts = s.last_ts) : Assembling bytes last t :=
  ⟨by rw [hfill, h.fill_eq], by rw [State.frame, hbuf, hfill]; exact h.frame_eq, by rw [hovf, h.ovf_eq],
    by rw [hts]; exact h.last_eq⟩

/-- A byte held is one of those handed over, and the last of them came at `last_ts`. -/
theorem last_eq_some (h : Assembling bytes last s) (held : 0 < s.fill.toNat) : last = some s.last_ts := by
  have hne : bytes ≠ [] := by
    rintro rfl
    simp [h.fill_eq] at held
  rw [h.last_eq, if_neg hne]

/-- With room the byte is appended to fewer than 256. -/
theorem rxByte_of_room (h : Assembling bytes last s) (room : s.fill.toNat < 256) (b : Byte) (ts : U32) :
    Assembling (bytes ++ [b]) (some ts) (effect (.rxByte b ts) s) := by
  have hfill := h.fill_eq
  have hlen : bytes.length < 256 := by omega
  have hframe : s.frame = bytes := h.frame_eq.trans (List.take_of_length_le hlen.le)
  have hovf : s.ovf = 0 := h.ovf_eq.trans (if_pos hlen.le)
  constructor
  · rw [effect_rxByte_of_room room, toNat_fill_succ room, List.length_append, List.length_singleton]
    omega
  · rw [frame_rxByte_of_room room, hframe, List.take_of_length_le (by simpa using hlen)]
  · rw [effect_rxByte_of_room room, hovf, if_pos (by simpa using hlen)]
  · rw [effect_rxByte_of_room room, if_neg (by simp)]

/-- Without room 256 bytes are held already, and the byte is one too many. -/
theorem rxByte_of_full (h : Assembling bytes last s) (full : 256 ≤ s.fill.toNat) (b : Byte) (ts : U32) :
    Assembling (bytes ++ [b]) (some ts) (effect (.rxByte b ts) s) := by
  have hfill := h.fill_eq
  have hlen : 256 ≤ bytes.length := by omega
  rw [effect_rxByte_of_full full]
  constructor
  · rw [List.length_append, List.length_singleton, hfill]
    omega
  · rw [List.take_append_of_le_length hlen]
    exact h.frame_eq
  · exact (if_neg (by simp; omega)).symm
  · exact (if_neg (by simp)).symm

/-- A poll of the schedule finds no complete frame: a byte held came at `last_ts`, too short a time before. -/
theorem not_complete (h : Assembling bytes last s) {now : U32}
    (below : silencesBelow s.cfg.tIfdMs last [.rxPoll now] = true) : ¬ s.complete now = true := by
  intro complete
  obtain ⟨held, silence⟩ := State.complete_iff.1 complete
  rw [h.last_eq_some held] at below
  exact absurd silence (Nat.not_le.2 (elapsed_lt_of_silencesBelow below))

/-- Each operation of the schedule hands over its byte, if it has one, and delivers nothing. -/
theorem step (h : Assembling bytes last s) (below : silencesBelow s.cfg.tIfdMs last [i] = true) :
    Assembling (bytes ++ receivedBytes [i]) (lastArrival last [i]) (effect i s) ∧
      ∃ r, (effect i s).res = s.res ++ [r] ∧ deliversNothing r = true := by
  have hcase := assembler_cases i s
  generalize ht : effect i s = t at hcase
  cases hcase with
  | stored b ts room => exact ⟨ht ▸ h.rxByte_of_room room b ts, _, rfl, rfl⟩
  | dropped b ts full => exact ⟨ht ▸ h.rxByte_of_full full b ts, _, rfl, rfl⟩
  | delivered now silence => exact absurd silence (h.not_complete below)
  | notReady now early =>
    rw [receivedBytes_of_not_rxByte (by simp), List.append_nil]
    exact ⟨h.congr rfl rfl rfl rfl, _, rfl, rfl⟩
  | untouched _ _ r hbyte hfill hbuf hovf hts hres quiet =>
    rw [receivedBytes_of_not_rxByte hbyte, List.append_nil, lastArrival_of_not_rxByte hbyte]
    exact ⟨h.congr hfill hbuf hovf hts, r, hres, quiet⟩

/-- A whole schedule hands over its bytes and delivers nothing. -/
theorem schedule (h : Assembling bytes last s) {ops : List Instr}
    (below : silencesBelow s.cfg.tIfdMs last ops = true) :
    Assembling (bytes ++ receivedBytes ops) (lastArrival last ops) (effects ops s) ∧
      ∃ rs, (effects ops s).res = s.res ++ rs ∧ ∀ r ∈ rs, deliversNothing r = true := by
  induction ops generalizing s bytes last with
  | nil => exact ⟨by simpa [receivedBytes, lastArrival] using h, [], by simp, by simp⟩
  | cons i ops ih =>
    obtain ⟨first, rest⟩ := silencesBelow_cons below
    obtain ⟨hstep, r, hr, quiet⟩ := h.step first
    obtain ⟨hrest, rs, hrs, quiets⟩ := ih hstep (by rwa [effect_cfg])
    refine ⟨?_, r :: rs, ?_, List.forall_mem_cons.2 ⟨quiet, quiets⟩⟩
    · rwa [receivedBytes_cons, ← List.append_assoc, lastArrival_cons]
    · rw [effects_cons, hrs, hr, List.append_assoc, List.singleton_append]

/-- The bytes handed over are delivered by a poll once the silence since the last of them has passed. -/
theorem complete {ts now : U32} (h : Assembling bytes (some ts) s)
    (silence : s.cfg.tIfdMs.toNat ≤ (now - ts).toNat) : s.complete now = true := by
  have hlast := h.last_eq
  split at hlast
  · cases hlast
  · next hne =>
    obtain rfl := Option.some.inj hlast
    have hpos := List.length_pos_iff.2 hne
    exact State.complete_iff.2 ⟨by rw [h.fill_eq]; omega, silence⟩

end Assembling

/-- From an empty assembler a schedule with a poll after the silence delivers one frame, at the end. -/
theorem schedule_delivers {s : State} {ops : List Instr} {now ts : U32} (hfill : s.fill = 0) (hovf : s.ovf = 0)
    (below : silencesBelow s.cfg.tIfdMs none ops = true) (hlast : lastArrival none ops = some ts)
    (silence : s.cfg.tIfdMs.toNat ≤ (now - ts).toNat) :
    ∃ (t : State) (rs : List Response), execAll (ops ++ [.rxPoll now]) s = .next t ∧ t.fill = 0 ∧ t.ovf = 0 ∧
      t.res = s.res ++ rs ++ [.ok (.poll
        ⟨1, if (receivedBytes ops).length ≤ 256 then 0 else 1, (receivedBytes ops).take 256⟩)] ∧
      ∀ r ∈ rs, deliversNothing r = true := by
  obtain ⟨held, rs, hrs, quiet⟩ := (Assembling.of_empty hfill hovf).schedule below
  rw [hlast, List.nil_append] at held
  have complete := held.complete (now := now) (by rwa [effects_cfg])
  refine ⟨_, rs, execAll_eq _ _, ?_⟩
  rw [effects_append, effects_cons, effects_nil, effect_rxPoll_of_complete complete, held.ovf_eq, held.frame_eq, hrs]
  exact ⟨rfl, rfl, rfl, quiet⟩

/-- Settles O48: the schedule's one frame is its at most 256 bytes. -/
theorem framingDeliversExactlyTheReceivedBytes : Obligations.FramingDeliversExactlyTheReceivedBytes := by
  intro s ops now ts hfill hovf hlen below hlast silence
  have hone := schedule_delivers hfill hovf below hlast silence
  rwa [if_pos hlen, List.take_of_length_le hlen] at hone

theorem take_add_two {l : Bytes} {n : Nat} (h : n + 2 ≤ l.length) :
    l.take (n + 2) = l.take n ++ [l.getD n 0, l.getD (n + 1) 0] := by
  rw [List.take_add_one, List.take_add_one, List.append_assoc, List.getElem?_eq_getElem (by omega),
    List.getElem?_eq_getElem (by omega), List.getD_eq_getElem l 0 (by omega), List.getD_eq_getElem l 0 (by omega)]
  rfl

/-- Settles O49: the schedule's one frame is cut to 256 bytes, the last two of which are compared as its trailer. -/
theorem overflowDeliversTheFirst256Bytes : Obligations.OverflowDeliversTheFirst256Bytes := by
  intro s ops now ts hfill hovf hlen below hlast silence
  obtain ⟨t, rs, hrun, htfill, htovf, hres, quiet⟩ := schedule_delivers hfill hovf below hlast silence
  rw [if_neg (Nat.not_le.2 hlen)] at hres
  refine ⟨t, rs, hrun, htfill, htovf, hres, quiet, ?_⟩
  rw [take_add_two (n := 254) hlen.le, verify_append_two_eq_one]
  exact eq_comm

end Sys2Proof.Machine

/-! SUPPORT. The settled statements of 43_direction.md: what DIR.TX and DIR.RX do with and without the direction line,
and receive mode as the reset value. -/

namespace Sys2Proof.Machine

/-! ### The level of the direction line (R46) -/

theorem State.dirOut_of_line {s : State} (line : s.cfg.hasDir = true) : s.dirOut = some s.dir := if_pos line

theorem State.dirOut_of_no_line {s : State} (line : s.cfg.hasDir = false) : s.dirOut = none :=
  if_neg (by simp [line])

/-! ### The direction operations (R240, R241, R244) -/

theorem effect_dirTx_of_line {s : State} (line : s.cfg.hasDir = true) :
    effect .dirTx s = { s with dir := 1, res := s.res ++ [.ok .unit] } :=
  congrArg (·.ok .unit) (State.assertTransmit_of_line line)

/-- Without the direction line DIR.TX only responds. -/
theorem effect_dirTx_of_no_line {s : State} (line : s.cfg.hasDir = false) :
    effect .dirTx s = { s with res := s.res ++ [.ok .unit] } :=
  congrArg (·.ok .unit) (State.assertTransmit_of_no_line (by simp [line]))

theorem effect_dirRx (s : State) : effect .dirRx s = { s with dir := 0, res := s.res ++ [.ok .unit] } := rfl

/-- Settles O52: DIR.TX with and without the line and DIR.RX by their equations; where the line exists its level is
`dir`. -/
theorem directionOperationsDriveTheLine : Obligations.DirectionOperationsDriveTheLine := by
  intro s
  refine ⟨fun line => ⟨_, exec_eq _ _, effect_dirTx_of_line line, ?_⟩, fun line => ?_,
    _, exec_eq _ _, effect_dirRx s, fun line => ?_⟩
  · rw [effect_dirTx_of_line line]
    exact State.dirOut_of_line line
  · rw [exec_eq, effect_dirTx_of_no_line line]
  · exact State.dirOut_of_line line

/-- Without the direction line no list of operations takes `dir` from 0 (R37, R244). -/
theorem effects_keep_dir_absent (ops : List Instr) {s : State} (line : s.cfg.hasDir = false) (h : s.dir = 0) :
    (effects ops s).dir = 0 := by
  induction ops generalizing s with
  | nil => exact h
  | cons i ops ih => exact ih (by rwa [effect_cfg]) (effect_keeps_dir_absent line h)

/-- Settles O53: by induction over the operations, each of which keeps `dir` at 0; none changes the parameters. -/
theorem withoutTheLineDirectionStaysReceive : Obligations.WithoutTheLineDirectionStaysReceive := by
  intro ops s t line h hrun
  obtain rfl := execAll_next hrun
  exact ⟨effects_keep_dir_absent ops line h, State.dirOut_of_no_line (by rwa [effects_cfg])⟩

/-- Settles O16: both resets write receive mode, whose level is low where the line exists. -/
theorem receiveModeIsTheResetValue : Obligations.ReceiveModeIsTheResetValue :=
  ⟨rfl, fun s rxbuf => ⟨s.powerOn rxbuf, rfl, rfl, State.dirOut_of_line⟩⟩

end Sys2Proof.Machine

/-! SUPPORT. The settled statement of 60_exceptions.md: what a step that responds with a fault can do. -/

namespace Sys2Proof

/-- A decoder fault carries the first word of the command stream, and is never BitIndexRange (R98, R260). -/
theorem head_of_rejected {cmd cmd' : List U32} {din din' : Bytes} {code : FaultCode} {w0 : U32}
    (h : decode cmd din = .rejected code w0 cmd' din') : cmd.head? = some w0 ∧ code ≠ .bitIndexRange := by
  cases h ▸ decode_cases cmd din with
  | illegal _ rest hcmd _ => exact ⟨by rw [hcmd, List.head?_cons], by decide⟩
  | reserved _ rest o r hcmd _ _ _ => exact ⟨by rw [hcmd, List.head?_cons], by decide⟩

/-- The first word of the command stream is the word 0 of the operation decoded from it. -/
theorem head_of_decode {cmd cmd' : List U32} {din din' : Bytes} {i : Instr} (h : decode cmd din = .op i cmd' din') :
    cmd.head? = some i.word0 := by
  obtain ⟨-, hwords, -⟩ := decodedOperationReencodesToItsStreams _ _ _ _ _ h
  rw [hwords]
  rfl

/-- Bits 31..24 of an operation's word 0 are its row's code (R96). -/
theorem word0_toNat_div (i : Instr) : i.word0.toNat / 2 ^ 24 = i.opcode.row.code.toNat := by
  rw [← opcField_toNat, Instr.word0, opcField_mkWord0]

end Sys2Proof

namespace Sys2Proof.Machine

/-- Every operation but BIT.PACK and BIT.READ responds Ok (R260). -/
theorem effect_responds_ok {i : Instr} (hpack : i.opcode ≠ .bitPack) (hread : i.opcode ≠ .bitRead) (s : State) :
    ∃ v, (effect i s).res = s.res ++ [.ok v] := by
  match i, hpack, hread with
  | .bitPack _ _ _, hpack, _ => exact absurd rfl hpack
  | .bitRead _ _, _, hread => exact absurd rfl hread
  | .rxPoll now, _, _ =>
    simp only [effect]
    split <;> exact ⟨_, rfl⟩
  | .rxByte b ts, _, _ | .dirTx, _, _ => exact ⟨.unit, by simp [effect]⟩
  | .crcInit, _, _ | .crcUpdate _, _, _ | .crcRead, _, _ | .crcCompute _, _, _ | .crcVerify _, _, _
  | .crcAppend _, _, _ | .w16To _, _, _ | .w16From _ _, _, _ | .rxStatus, _, _ | .dirRx, _, _ => exact ⟨_, rfl⟩

/-- BIT.PACK and BIT.READ take the fault of the failed bounds check, or respond Ok (R171, R172). -/
theorem effect_bitAccess_cases {i : Instr} (h : i.opcode = .bitPack ∨ i.opcode = .bitRead) (s : State) :
    effect i s = s.takeFault .bitIndexRange i.word0 ∨ ∃ v, (effect i s).res = s.res ++ [.ok v] := by
  match i, h with
  | .bitPack idx v nbits, _ | .bitRead idx nbits, _ =>
    simp only [effect]
    split
    · exact .inl rfl
    · exact .inr ⟨_, rfl⟩

/-- An operation that responds with a fault is BIT.PACK or BIT.READ, and its bounds check's fault is all it does
(R260, R261). -/
theorem effect_of_fault {i : Instr} {s : State} {c : FaultCode} {w : U32}
    (h : (effect i s).res = s.res ++ [.fault c w]) :
    effect i s = s.takeFault c w ∧ w = i.word0 ∧ (i.opcode = .bitPack ∨ i.opcode = .bitRead) := by
  have not_ok : ¬ ∃ v, (effect i s).res = s.res ++ [.ok v] := by simp [h]
  by_cases hop : i.opcode = .bitPack ∨ i.opcode = .bitRead
  · have hfault := (effect_bitAccess_cases hop s).resolve_right not_ok
    obtain ⟨rfl, rfl⟩ : c = .bitIndexRange ∧ w = i.word0 := by simpa [hfault] using h.symm
    exact ⟨hfault, rfl, hop⟩
  · rw [not_or] at hop
    exact absurd (effect_responds_ok hop.1 hop.2 s) not_ok

/-- Settles O12: of the three ways a step ends waiting gives no response, a decoder fault is never BitIndexRange, and
an operation that faults is BIT.PACK or BIT.READ. -/
theorem faultingStepChangesNoState : Obligations.FaultingStepChangesNoState := by
  intro s t c w h hres
  cases step_cases h with
  | waiting hd => simp at hres
  | rejected code w0 cmd din hd =>
    obtain ⟨rfl, rfl⟩ : code = c ∧ w0 = w := by simpa using hres
    obtain ⟨hhead, hcode⟩ := head_of_rejected hd
    exact ⟨rfl, hhead, fun hrange => absurd hrange hcode⟩
  | op i cmd din hd =>
    obtain ⟨heffect, rfl, hop⟩ := effect_of_fault hres
    rw [heffect, word0_toNat_div]
    refine ⟨rfl, head_of_decode hd, fun _ => ?_⟩
    rcases hop with hop | hop <;> rw [hop]
    · exact .inl rfl
    · exact .inr rfl

end Sys2Proof.Machine

/-! SUPPORT. The settled statements of 70_reset_and_hazards.md: what the host's duties R293 and R304 give it. -/

namespace Sys2Proof.Machine

/-! ### A checksum stream begins with CRC.INIT (R304) -/

/-- Operations but CRC.INIT, CRC.UPDATE and CRC.READ neither read nor write the accumulator (R33). -/
theorem effect_crc_frame {i : Instr} (hinit : i ≠ .crcInit) (hupdate : ∀ b, i ≠ .crcUpdate b) (hread : i ≠ .crcRead)
    (s : State) (c : U16) : effect i { s with crc := c } = { effect i s with crc := c } := by
  match i, hinit, hupdate, hread with
  | .crcInit, hinit, _, _ => exact absurd rfl hinit
  | .crcUpdate b, _, hupdate, _ => exact absurd rfl (hupdate b)
  | .crcRead, _, _, hread => exact absurd rfl hread
  | .bitPack idx v nbits, _, _, _ | .bitRead idx nbits, _, _, _ =>
    simp only [effect]
    split <;> rfl
  | .rxByte b ts, _, _, _ =>
    have sameRoom : State.hasRoom { s with crc := c } = s.hasRoom := rfl
    apply State.ext_fields <;> simp [effect, State.ovfAfterByte, sameRoom]
  | .rxPoll now, _, _, _ =>
    have silence : State.complete { s with crc := c } now = s.complete now := rfl
    simp only [effect, silence]
    split <;> rfl
  | .dirTx, _, _, _ =>
    simp only [effect, State.assertTransmit]
    split <;> rfl
  | .crcCompute _, _, _, _ | .crcVerify _, _, _, _ | .crcAppend _, _, _, _ | .w16To _, _, _, _ | .w16From _ _, _, _, _
  | .rxStatus, _, _, _ | .dirRx, _, _, _ => rfl

/-- While no stream has begun, the next operation begins one or does not use the accumulator. -/
theorem streamsStarted_cons_cases {i : Instr} {ops : List Instr} (h : streamsStarted false (i :: ops) = true) :
    i = .crcInit ∨
      (i ≠ .crcInit ∧ (∀ b, i ≠ .crcUpdate b) ∧ i ≠ .crcRead ∧ streamsStarted false ops = true) := by
  match i, h with
  | .crcInit, _ => exact .inl rfl
  | .crcUpdate _, h | .crcRead, h => exact absurd h (by simp [streamsStarted])
  | .crcCompute _, h | .crcVerify _, h | .crcAppend _, h | .bitPack _ _ _, h | .bitRead _ _, h | .w16To _, h
  | .w16From _ _, h | .rxByte _ _, h | .rxPoll _, h | .rxStatus, h | .dirTx, h | .dirRx, h =>
    exact .inr ⟨by simp, by simp, by simp, h⟩

/-- Up to the first CRC.INIT the old accumulator is carried along unused; CRC.INIT overwrites it. -/
theorem effects_res_of_streamsStarted {ops : List Instr} (h : streamsStarted false ops = true) (s : State) (c : U16) :
    (effects ops { s with crc := c }).res = (effects ops s).res := by
  induction ops generalizing s with
  | nil => rfl
  | cons i ops ih =>
    rcases streamsStarted_cons_cases h with rfl | ⟨hinit, hupdate, hread, hops⟩
    · rfl
    · rw [effects_cons, effects_cons, effect_crc_frame hinit hupdate hread s c]
      exact ih hops (effect i s)

/-- Settles O31: both runs answer, and with the same responses. -/
theorem startedStreamsIgnoreTheOldAccumulator : Obligations.StartedStreamsIgnoreTheOldAccumulator :=
  fun ops s c h => ⟨_, _, execAll_eq ops s, execAll_eq ops _, effects_res_of_streamsStarted h s c⟩

/-! ### A caller buffer of the declared size (R293 step 7) -/

/-- In a buffer of `ceil(nbits / 8)` bytes every bit below the count has its byte. -/
theorem byte_lt_of_bufferSized {cfg : Config} {idx : U16} {nbits : U32} (hsized : bufferSized cfg nbits = true)
    (hidx : idx.toNat < nbits.toNat) : idx.toNat / 8 < cfg.cbufBytes.val := by
  have hbytes : (nbits.toNat + 7) / 8 ≤ cfg.cbufBytes.val := of_decide_eq_true hsized
  omega

/-- Settles O39: the index has its byte in the buffer, so the bounds check passes and both operations respond Ok. -/
theorem sizedBufferNeverFaultsInsideTheCount : Obligations.SizedBufferNeverFaultsInsideTheCount := by
  intro s idx v nbits hsized hidx
  have hbyte := byte_lt_of_bufferSized hsized hidx
  rw [exec_eq, exec_eq, effect_bitPack_inBounds hidx hbyte v, effect_bitRead_inBounds hidx hbyte]
  exact ⟨⟨_, rfl, List.getLast?_concat⟩, _, _, rfl, State.ok_lastResponse _ _⟩

end Sys2Proof.Machine
